-- ==== Sys2Proof/Word.lean ====
section
/-! DEFINITION. The widths of the engine's values (R5, R7): everything is unsigned. -/

namespace Sys2Proof

/-- `u8` of R7: a byte of a payload, of `P` or of `BLK`. -/
abbrev Byte := BitVec 8

/-- `u32` of R7: a word of `H`, `A..E`, `W`. -/
abbrev Word := BitVec 32

/-- The 64-bit command word of R72. -/
abbrev CommandWord := BitVec 64

/-- The 64-bit length counter `LEN` of R26. -/
abbrev BitCount := BitVec 64

end Sys2Proof
end

