-- ==== Sys2Proof/Config.lean ====
section
/-! DEFINITION. What the spec leaves without a value: the scratch registers after a reset (R34, R170, U1 of 93_implementation_defined.md).

The parameters of R5 that the spec fixes stand where they are used; `cycles_per_block` and `max_chunk_bytes` are used
by no rule (R5) and are left out (logs 17 and 18). -/

namespace Sys2Proof.Config

/-! Each constant below is a free value: it has no body that a proof could use, and is applied to a counter of
`State` so that every reset draws anew (log 5). -/

/-- `A..E` after the `n`-th reset of a run (R34: unspecified). -/
opaque freeWorking (n : Nat) (register : Fin 5) : Word

/-- `W[0..79]` after the `n`-th reset of a run (R34: unspecified). -/
opaque freeSchedule (n : Nat) : Vector Word 80

/-- `BLK[0..63]` after the `n`-th reset of a run (R34: unspecified). -/
opaque freeBlock (n : Nat) : Vector Byte 64

/-- `T` after the `n`-th reset of a run (R34: unspecified). -/
opaque freeRound (n : Nat) : Fin 80

/-- `KBLK` after the `n`-th reset of a run (R34: unspecified). -/
opaque freeBlockIndex (n : Nat) : Nat

end Sys2Proof.Config
end

