-- ==== Sys2Proof/Syntax.lean ====
section
/-! DEFINITION. The four commands of R70 and R75, and the transaction of R71 that carries one. -/

namespace Sys2Proof

/-- The abstract commands of R70, one constructor per row of the opcode map R75. -/
inductive Instr where
  /-- `INIT` (R131). -/
  | init
  /-- `ABSORB payload` (R132), the source's `ingestChunk(payload, false)`. -/
  | absorb (payload : List Byte)
  /-- `FINAL payload` (R133), the source's `ingestChunk(payload, true)`. -/
  | final (payload : List Byte)
  /-- `READ` (R134). -/
  | read
deriving DecidableEq, Repr

/-- The bytes that accompany the command word; none for the format C0 (R71, R73). -/
def Instr.payload : Instr → List Byte
  | .init => []
  | .absorb payload => payload
  | .final payload => payload
  | .read => []

/-- A command word with a payload of exactly `lenb` bytes, `lenb` being bits 60:0 of the word (R71, R72). That no other
payload length can be presented is part of the type (log 11). -/
structure Transaction where
  word : CommandWord
  payload : List Byte
  exact : payload.length = (word.extractLsb' 0 61).toNat
deriving DecidableEq, Repr

end Sys2Proof
end

