-- ==== Sys2Proof/WellFormed.lean ====
section
/-! DEFINITION. When a command has an encoding: its payload length fits the 61-bit field `lenb` (R72, R82). -/

namespace Sys2Proof

/-- R82: the encoding is "defined when `len(p) < 2^61`". -/
abbrev Instr.WellFormed (i : Instr) : Prop := i.payload.length < 2 ^ 61

end Sys2Proof
end

