-- ==== Sys2Proof/Decode.lean ====
section
/-! DEFINITION. The command word (R72 to R77, R82): its fields, the decoder, the opcode map as mask and match, the encoder. -/

namespace Sys2Proof

/-- `op`, bits 63:61 (R72). -/
def opField (w : CommandWord) : BitVec 3 := w.extractLsb' 61 3

/-- `lenb`, bits 60:0 (R72). -/
def lenField (w : CommandWord) : BitVec 61 := w.extractLsb' 0 61

/-- Why a command word is reserved (R77). Answered by `decode`; the engine turns either into `IllegalCommand` (R154). -/
inductive DecodeError where
  /-- `op` is 000, 101, 110 or 111. -/
  | reservedOp (op : BitVec 3)
  /-- `op` is 001 or 100 and `lenb` is not zero. -/
  | reservedLength (op : BitVec 3) (lenb : BitVec 61)
deriving DecidableEq, Repr

/-- R82: the decoding procedure, total on every 64-bit word with its payload. -/
def decode (tx : Transaction) : Except DecodeError Instr :=
  let op := opField tx.word
  let lenb := lenField tx.word
  if op = 0b001#3 ∧ lenb = 0 then .ok .init
  else if op = 0b010#3 then .ok (.absorb tx.payload)
  else if op = 0b011#3 then .ok (.final tx.payload)
  else if op = 0b100#3 ∧ lenb = 0 then .ok .read
  else if op = 0b001#3 ∨ op = 0b100#3 then .error (.reservedLength op lenb)
  else .error (.reservedOp op)

/-- The row of the opcode map R75 that a command belongs to. -/
inductive Mnemonic where
  | INIT | ABSORB | FINAL | READ
deriving DecidableEq, Repr

def Instr.mnemonic : Instr → Mnemonic
  | .init => .INIT
  | .absorb _ => .ABSORB
  | .final _ => .FINAL
  | .read => .READ

/-- `mask` of a row of R75. -/
def Mnemonic.mask : Mnemonic → CommandWord
  | .INIT => 0xFFFFFFFFFFFFFFFF
  | .ABSORB => 0xE000000000000000
  | .FINAL => 0xE000000000000000
  | .READ => 0xFFFFFFFFFFFFFFFF

/-- `match` of a row of R75. -/
def Mnemonic.pattern : Mnemonic → CommandWord
  | .INIT => 0x2000000000000000
  | .ABSORB => 0x4000000000000000
  | .FINAL => 0x6000000000000000
  | .READ => 0x8000000000000000

/-- R75: "a word `w` selects the row when `w and mask = match`". -/
def Mnemonic.selects (m : Mnemonic) (w : CommandWord) : Bool := w &&& m.mask == m.pattern

/-- `op` of each command (R75). -/
def Mnemonic.op : Mnemonic → BitVec 3
  | .INIT => 0b001
  | .ABSORB => 0b010
  | .FINAL => 0b011
  | .READ => 0b100

/-- R82: the command word, `op ‖ len(p)`. -/
def encodeWord (i : Instr) : CommandWord := i.mnemonic.op ++ BitVec.ofNat 61 i.payload.length

@[simp] theorem opField_encodeWord (i : Instr) : opField (encodeWord i) = i.mnemonic.op :=
  BitVec.extractLsb'_append_eq_left

@[simp] theorem lenField_encodeWord (i : Instr) :
    lenField (encodeWord i) = BitVec.ofNat 61 i.payload.length :=
  BitVec.extractLsb'_append_eq_right

/-- R82: the transaction of a command whose payload fits the length field. -/
def encode (i : Instr) (h : i.WellFormed) : Transaction where
  word := encodeWord i
  payload := i.payload
  exact := by
    have hw := congrArg BitVec.toNat (lenField_encodeWord i)
    rw [lenField, BitVec.toNat_ofNat, Nat.mod_eq_of_lt h] at hw
    exact hw.symm

/-- The transaction for a table word: the word's bits from `nbits` up are 0, and so are the `lenb` payload bytes that the
table gives no bits (log 9). -/
def tableTransaction (nbits w : Nat) : Transaction where
  word := BitVec.ofNat 64 (w % 2 ^ nbits)
  payload := List.replicate (lenField (BitVec.ofNat 64 (w % 2 ^ nbits))).toNat 0
  exact := List.length_replicate

/-- What the decoder reads from a row's word of `spec/opcode_table.json`. -/
def decodeTableWord (nbits w : Nat) : Option Instr :=
  match decode (tableTransaction nbits w) with
  | .ok i => some i
  | .error _ => none

end Sys2Proof
end

