-- ==== Sys2Proof/Machine/State.lean ====
section
/-! DEFINITION. Every piece of state of R20, the responses of R78, and the model's own record of the environment. -/

namespace Sys2Proof.Machine

/-- The digest registers `H[0..4]` (R21), also the shape of a digest (R56). -/
structure Hash where
  h0 : Word
  h1 : Word
  h2 : Word
  h3 : Word
  h4 : Word
deriving DecidableEq, Repr

/-- The working registers `A B C D E = R[0..4]` (R23). -/
structure Working where
  a : Word
  b : Word
  c : Word
  d : Word
  e : Word
deriving DecidableEq, Repr

/-- The status names of R79. -/
inductive Status where
  | ok
  | unalignedChunk
  | sessionClosed
  | malformedWordConversion
  | illegalCommand
deriving DecidableEq, Repr

/-- The response record of R78; `hex` is a sequence of character codes, empty where the rule says absent. -/
structure Response where
  status : Status
  digest : BitVec 160
  hex : List Byte
deriving DecidableEq, Repr

/-- What the environment can do to the engine (R6): present a transaction, or reset it. -/
inductive HostMove where
  /-- R71: a command word with its payload. -/
  | command (tx : Transaction)
  /-- R170: reset between two commands. -/
  | reset
  /-- R172: reset while the command of `tx` is executing. -/
  | resetDuring (tx : Transaction)
deriving DecidableEq, Repr

/-- The machine. -/
structure State where
  /-- `H[0..4]` (R21). -/
  hash : Hash
  /-- `LEN` (R26). -/
  len : BitCount
  /-- `FIN` (R28). -/
  fin : Bool
  /-- `A..E` (R23), scratch. -/
  work : Working
  /-- `W[0..79]` (R24), scratch. -/
  sched : Vector Word 80
  /-- `BLK[0..63]` (R30), scratch. -/
  blk : Vector Byte 64
  /-- `T` (R30), scratch. -/
  t : Fin 80
  /-- `KBLK` (R30), scratch. -/
  kblk : Nat
  /-- The model's own: the moves the host has still to make, next first (R6, R71; log 1). -/
  host : List HostMove
  /-- The model's own: the response records returned so far, oldest first (R33, R71; log 2). -/
  responses : List Response
  /-- The model's own: the next index of the free values of `Config` (log 5). -/
  draws : Nat
deriving DecidableEq, Repr

/-- How the machine could stop. -/
inductive Fault where
  /-- Raised by `bytesToWords` on a buffer whose length is not a multiple of 4 (R91, R153; U5: "if it is ever reached from
  a command, fault"). Safe: the machine stops where the spec says nothing happens; no command reaches it. -/
  | malformedWordConversion
deriving DecidableEq, Repr

/-- Why an instruction would have no meaning. -/
inductive Refusal where
  /-- Raised by `exec` for an instruction the model gives no meaning; no arm does. Safe. -/
  | notModelled (mnemonic : String)
deriving DecidableEq, Repr

/-- R34, R170: the machine right after reset. Scratch is unspecified there: zero is the model's choice (log 4). -/
def State.reset : State where
  hash := ⟨0x67452301, 0xEFCDAB89, 0x98BADCFE, 0x10325476, 0xC3D2E1F0⟩
  len := 0
  fin := false
  work := ⟨0, 0, 0, 0, 0⟩
  sched := Vector.replicate 80 0
  blk := Vector.replicate 64 0
  t := 0
  kblk := 0
  host := []
  responses := []
  draws := 0

end Sys2Proof.Machine
end

