-- ==== Sys2Proof/Machine/Ops.lean ====
section
/-! DEFINITION. The word operations of R8 to R11, the constants IV and K, the response that ends a command, the rejection of
a command (R156: the engine's whole trap entry), and reset (R170). -/

namespace Sys2Proof.Machine

/-! ## Words -/

/-- `rotl32(x, n)` of R9, for `1 <= n <= 31`; the engine uses 1, 5 and 30. -/
def rotl32 (x : Word) (n : Nat) : Word := (x <<< n) ||| (x >>> (32 - n))

def rotateLeft1 (x : Word) : Word := rotl32 x 1
def rotateLeft5 (x : Word) : Word := rotl32 x 5
def rotateLeft30 (x : Word) : Word := rotl32 x 30

/-- `be32` of R11: byte 0 is most significant. -/
def be32 (b0 b1 b2 b3 : Byte) : Word := b0 ++ b1 ++ b2 ++ b3

/-- The `n` bytes of an `8n`-bit value, most significant first (R11, R59). -/
def bigEndianBytes : (n : Nat) → BitVec (8 * n) → List Byte
  | 0, _ => []
  | n + 1, v => v.extractLsb' (8 * n) 8 :: bigEndianBytes n (v.extractLsb' 0 (8 * n))

/-- `be64bytes` of R11. -/
def be64bytes (v : BitCount) : List Byte := bigEndianBytes 8 v

/-- IV of R22. -/
def iv : Hash := ⟨0x67452301, 0xEFCDAB89, 0x98BADCFE, 0x10325476, 0xC3D2E1F0⟩

/-- The round constant `K(t)` of R116. -/
def roundConstant (t : Fin 80) : Word :=
  if t.val ≤ 19 then 0x5A827999
  else if t.val ≤ 39 then 0x6ED9EBA1
  else if t.val ≤ 59 then 0x8F1BBCDC
  else 0xCA62C1D6

/-- `choose` of R115. -/
def choose (b c d : Word) : Word := (b &&& c) ||| (~~~b &&& d)

/-- `parity` of R115. -/
def parity (b c d : Word) : Word := b ^^^ c ^^^ d

/-- `majority` of R115. -/
def majority (b c d : Word) : Word := (b &&& c) ||| (b &&& d) ||| (c &&& d)

/-- The round function `f(t, B, C, D)` of R115; total by the type of `t` (R121). -/
def roundFunction (t : Fin 80) (b c d : Word) : Word :=
  if t.val ≤ 19 then choose b c d
  else if t.val ≤ 39 then parity b c d
  else if t.val ≤ 59 then majority b c d
  else parity b c d

/-! ## Responses -/

/-- The status codes of R79. -/
def Status.code : Status → BitVec 3
  | .ok => 0
  | .unalignedChunk => 1
  | .sessionClosed => 2
  | .malformedWordConversion => 3
  | .illegalCommand => 4

/-- R78: the record as one bit vector, status in bits 162:160 and digest in bits 159:0. -/
def Response.bits (r : Response) : BitVec 163 := r.status.code ++ r.digest

/-- R78: the record of every response that is not a successful `READ`. -/
def plainResponse (status : Status) : Response := ⟨status, 0, []⟩

/-- `respond` of R12: the command ends and its record is returned. -/
def respond (r : Response) (s : State) : State := { s with responses := s.responses ++ [r] }

/-- `raise` of R12 and R156: the command ends with the error's code; every register keeps its value, scratch too (log 7). -/
def reject (status : Status) (s : State) : State := respond (plainResponse status) s

/-! ## A new session, and reset -/

/-- R131 and R170: `H <- IV`, `LEN <- 0`, `FIN <- 0`. -/
def startSession (s : State) : State := { s with hash := iv, len := 0, fin := false }

/-- R170: reset inside a run. The architectural registers are those of a new session, scratch is unspecified (R34), so it
takes free values (log 5), and no response is returned (R172). -/
def resetEngine (s : State) : State :=
  { startSession s with
    work := ⟨Config.freeWorking s.draws 0, Config.freeWorking s.draws 1, Config.freeWorking s.draws 2,
      Config.freeWorking s.draws 3, Config.freeWorking s.draws 4⟩
    sched := Config.freeSchedule s.draws
    blk := Config.freeBlock s.draws
    t := Config.freeRound s.draws
    kblk := Config.freeBlockIndex s.draws
    draws := s.draws + 1 }

end Sys2Proof.Machine
end

