-- ==== Sys2Proof/Machine/Codec.lean ====
section
/-! DEFINITION. The byte/word codec (R90 to R94): pure and stateless. -/

namespace Sys2Proof.Machine

/-- `bytesToWords` of R90; a length that is not a multiple of 4 is an error, never truncated or filled (R91). -/
def bytesToWords : List Byte → Except Fault (List Word)
  | [] => .ok []
  | b0 :: b1 :: b2 :: b3 :: rest =>
    match bytesToWords rest with
    | .ok ws => .ok (be32 b0 b1 b2 b3 :: ws)
    | .error f => .error f
  | _ => .error .malformedWordConversion

/-- `hexdigit(v)` of R93, as its ASCII code. -/
def hexDigit (v : BitVec 4) : Byte :=
  if v.toNat ≤ 9 then BitVec.ofNat 8 (0x30 + v.toNat) else BitVec.ofNat 8 (0x61 + (v.toNat - 10))

/-- R92: the 8 digits of a word, most significant first. -/
def wordToHex (w : Word) : List Byte :=
  [7, 6, 5, 4, 3, 2, 1, 0].map fun d => hexDigit (w.extractLsb' (4 * d) 4)

/-- `wordsToHex` of R92. -/
def wordsToHex (ws : List Word) : List Byte := ws.flatMap wordToHex

/-- `H[0..4]` in order (R56). -/
def Hash.words (h : Hash) : List Word := [h.h0, h.h1, h.h2, h.h3, h.h4]

/-- R56: the 160-bit value `H[0] ‖ H[1] ‖ H[2] ‖ H[3] ‖ H[4]`. -/
def Hash.digest (h : Hash) : BitVec 160 := h.h0 ++ h.h1 ++ h.h2 ++ h.h3 ++ h.h4

/-- R78: the record of a `READ` that returns `OK`. -/
def digestResponse (h : Hash) : Response := ⟨.ok, h.digest, wordsToHex h.words⟩

end Sys2Proof.Machine
end

