-- ==== Sys2Proof/Machine/Operands.lean ====
section
/-! DEFINITION. The one operand form, a payload of `n` bytes (R76): what it adds to `LEN`, its blocks, and the memory
primitives over a message buffer (R50, R59). -/

namespace Sys2Proof.Machine

/-- R76: the bit count `8 * n` of a chunk, `n << 3` in 64 bits. -/
def bitCount (payload : List Byte) : BitCount := BitVec.ofNat 64 payload.length <<< 3

/-- R132 and R133: `LEN <- LEN +64 (8 * n)`; wraps (D10). -/
def addLength (payload : List Byte) (s : State) : State := { s with len := s.len + bitCount payload }

/-- R111: `P[64k : 64k + 64]`, block `k` of a buffer that has one. -/
def blockAt (p : List Byte) (k : Nat) (h : k < p.length / 64) : Vector Byte 64 :=
  ⟨((p.drop (64 * k)).take 64).toArray, by simp; omega⟩

/-- The big-endian value of a byte sequence (R59). -/
def bigEndianValue (b : List Byte) : Nat := b.foldl (fun v x => 256 * v + x.toNat) 0

/-- `MemRead(addr, n)` of R59; outside its precondition there is no result (log 10). -/
def memRead (p : List Byte) (addr n : Nat) : Option (BitVec (8 * n)) :=
  if addr + n ≤ p.length ∧ (n = 1 ∨ n = 4 ∨ n = 8) then
    some (BitVec.ofNat (8 * n) (bigEndianValue ((p.drop addr).take n)))
  else none

/-- `MemWrite(addr, n, v)` of R59, append only; outside its precondition there is no result (log 10). -/
def memWrite (p : List Byte) (addr n : Nat) (v : BitVec (8 * n)) : Option (List Byte) :=
  if addr = p.length then some (p ++ bigEndianBytes n v) else none

end Sys2Proof.Machine
end

