-- ==== Sys2Proof/Machine/Compression.lean ====
section
/-! DEFINITION. The compression engine (R110 to R123), on the registers of the machine. -/

namespace Sys2Proof.Machine

/-- R112: step 1, seed. -/
def seed (s : State) : State :=
  { s with work := ⟨s.hash.h0, s.hash.h1, s.hash.h2, s.hash.h3, s.hash.h4⟩ }

/-- `W[i], W[i+1], ... <- ws`. -/
def writeWords : (ws : List Word) → (i : Nat) → Vector Word 80 → Vector Word 80
  | [], _, sched => sched
  | w :: ws, i, sched => writeWords ws (i + 1) (sched.setIfInBounds i w)

/-- R113: step 2, load `W[0..15]` from `BLK` through the codec. -/
def loadSchedule (s : State) : Except Fault State :=
  match bytesToWords s.blk.toList with
  | .ok ws => .ok { s with sched := writeWords ws 0 s.sched }
  | .error f => .error f

/-- R114: `t` in 16 .. 79, ascending. -/
def expansionIndices : List (Fin 80) := (List.finRange 80).drop 16

/-- R114: one word of the expansion. -/
def expandWord (w : Vector Word 80) (t : Fin 80) : Vector Word 80 :=
  w.set t (rotateLeft1 (w[t.val - 3] ^^^ w[t.val - 8] ^^^ w[t.val - 14] ^^^ w[t.val - 16]))

/-- R114: the expansion of `W`, in ascending order of `t`. -/
@[irreducible] def expandSchedule (w : Vector Word 80) : Vector Word 80 := expansionIndices.foldl expandWord w

/-- R114: step 3, expansion; `T` runs 16 .. 79 and is left at 79 (R30, log 6). -/
def expand (s : State) : State := { s with t := 79, sched := expandSchedule s.sched }

/-- `TEMP` of R117. -/
def roundSum (t : Fin 80) (w : Word) (r : Working) : Word :=
  rotateLeft5 r.a + roundFunction t r.b r.c r.d + r.e + w + roundConstant t

/-- R118: the simultaneous update of `A..E`. -/
def roundUpdate (t : Fin 80) (w : Word) (r : Working) : Working :=
  ⟨roundSum t w r, r.a, rotateLeft30 r.b, r.c, r.d⟩

/-- R118: the 80 rounds on `A..E`, in ascending order of `t`, round `t` on `W[t]`. -/
@[irreducible] def runRounds (w : Vector Word 80) (r : Working) : Working :=
  ((List.finRange 80).zip w.toList).foldl (fun r tw => roundUpdate tw.1 tw.2 r) r

/-- R118: step 4, the rounds; `T` runs 0 .. 79 and is left at 79 (R30, log 6). -/
def rounds (s : State) : State := { s with t := 79, work := runRounds s.sched s.work }

/-- R119: step 5, `H[i] <- H[i] +32 R[i]`. -/
def addWorking (h : Hash) (r : Working) : Hash :=
  ⟨h.h0 + r.a, h.h1 + r.b, h.h2 + r.c, h.h3 + r.d, h.h4 + r.e⟩

/-- R119: step 5, fold back. -/
def foldBack (s : State) : State := { s with hash := addWorking s.hash s.work }

/-- R123: the block procedure on the block in `BLK`. -/
def compressBlock (s : State) : Except Fault State :=
  match loadSchedule (seed s) with
  | .ok s' => .ok (foldBack (rounds (expand s')))
  | .error f => .error f

/-- R111: `KBLK <- k`, `BLK <- P[64k : 64k + 64]`. -/
def fetchBlock (p : List Byte) (s : State) (k : Fin (p.length / 64)) : State :=
  { s with kblk := k, blk := blockAt p k k.isLt }

/-- R110 and R111: the blocks of `P` in ascending order, each from the `H` the one before left. -/
def compress (p : List Byte) (s : State) : Except Fault State :=
  (List.finRange (p.length / 64)).foldlM (fun s k => compressBlock (fetchBlock p s k)) s

end Sys2Proof.Machine
end

