-- ==== Sys2Proof/Machine/Flags.lean ====
section
/-! DEFINITION. The engine's only flag, `FIN` (R28), and the phases that are a function of the state (R29). -/

namespace Sys2Proof.Machine

/-- R133: `FIN <- 1`. No operation of the datapath sets or reads a flag (R28). -/
def closeSession (s : State) : State := { s with fin := true }

/-- The phases of R29. -/
inductive Phase where
  | fresh
  | absorbing
  | finalized
deriving DecidableEq, Repr

/-- R29: Finalized is `FIN = 1`; Fresh has `H = IV` and `LEN = 0`; Absorbing is `FIN = 0` otherwise (log 8). -/
def State.phase (s : State) : Phase :=
  if s.fin then .finalized
  else if s.hash = iv ∧ s.len = 0 then .fresh
  else .absorbing

end Sys2Proof.Machine
end

