-- ==== Sys2Proof/Machine/Padding.lean ====
section
/-! DEFINITION. The padding stage (R100 to R107): pure, the total length is an argument. -/

namespace Sys2Proof.Machine

/-- The loop of R102, at most `fuel` turns: append `0x00` while the length is not 56 mod 64. -/
def appendZeros : (fuel : Nat) → List Byte → List Byte
  | 0, p => p
  | fuel + 1, p => if p.length % 64 = 56 then p else appendZeros fuel (p ++ [0x00])

/-- `pad(chunk, L)` of R100: R101, then R102 (which needs at most 63 turns), then R103. -/
def pad (chunk : List Byte) (total : BitCount) : List Byte :=
  appendZeros 63 (chunk ++ [0x80]) ++ be64bytes total

end Sys2Proof.Machine
end

