-- ==== Sys2Proof/Machine/Session.lean ====
section
/-! DEFINITION. The four commands (R130 to R134). Errors are responses, not faults (R156). -/

namespace Sys2Proof.Machine

/-- The end of a command that ran its datapath: the response `r` gives, or the fault of U5. -/
def conclude (r : State → Response) : Except Fault State → Host.Outcome State Fault Refusal
  | .ok s => .next (respond (r s) s)
  | .error f => .fault f

/-- R133: take the last chunk, pad it with the length of the whole message, compress, and set `FIN`. -/
def finalizeWith (payload : List Byte) (s : State) : Except Fault State :=
  match compress (pad payload (addLength payload s).len) (addLength payload s) with
  | .ok s' => .ok (closeSession s')
  | .error f => .error f

/-- `INIT` (R131). -/
def execInit (s : State) : Host.Outcome State Fault Refusal :=
  .next (respond (plainResponse .ok) (startSession s))

/-- `ABSORB payload` (R132); the order of the two checks is R155. -/
def execAbsorb (payload : List Byte) (s : State) : Host.Outcome State Fault Refusal :=
  if s.fin then .next (reject .sessionClosed s)
  else if payload.length % 64 ≠ 0 then .next (reject .unalignedChunk s)
  else conclude (fun _ => plainResponse .ok) (compress payload (addLength payload s))

/-- `FINAL payload` (R133). -/
def execFinal (payload : List Byte) (s : State) : Host.Outcome State Fault Refusal :=
  if s.fin then .next (reject .sessionClosed s)
  else conclude (fun _ => plainResponse .ok) (finalizeWith payload s)

/-- `READ` (R134): while `FIN = 0` the empty final chunk is implied (C4). -/
def execRead (s : State) : Host.Outcome State Fault Refusal :=
  conclude (fun s' => digestResponse s'.hash) (if s.fin then .ok s else finalizeWith [] s)

end Sys2Proof.Machine
end

