-- ==== Sys2Proof/Machine/Dispatch.lean ====
section
/-! DEFINITION. The meaning of each command, one arm per constructor of `Instr`. -/

namespace Sys2Proof.Machine

def exec (i : Instr) (s : State) : Host.Outcome State Fault Refusal :=
  match i with
  | .init => Sys2Proof.Machine.execInit s
  | .absorb payload => Sys2Proof.Machine.execAbsorb payload s
  | .final payload => Sys2Proof.Machine.execFinal payload s
  | .read => Sys2Proof.Machine.execRead s

end Sys2Proof.Machine
end

