-- ==== Sys2Proof/Machine/Step.lean ====
section
/-! DEFINITION. One step: the engine executes the next command to completion, or is reset (R6, R62, R71). -/

namespace Sys2Proof.Machine

/-- R71: take a transaction whole: decode it, and run or reject it (R77, R154). -/
def execTransaction (tx : Transaction) (s : State) : Host.Outcome State Fault Refusal :=
  match decode tx with
  | .ok i => exec i s
  | .error _ => .next (reject .illegalCommand s)

/-- The host's next move. With none, the engine waits and keeps its state (R165, R171; log 3). -/
def step (s : State) : Host.Outcome State Fault Refusal :=
  match s.host with
  | [] => .next s
  | .command tx :: rest => execTransaction tx { s with host := rest }
  | .reset :: rest => .next (resetEngine { s with host := rest })
  | .resetDuring _ :: rest => .next (resetEngine { s with host := rest })

/-- `s` with the instruction of a table word as the host's next transaction. -/
def State.withFetchWord (s : State) (nbits w : Nat) : State :=
  { s with host := .command (tableTransaction nbits w) :: s.host }

end Sys2Proof.Machine
end

