-- ==== Sys2Proof/Machine/Assembler.lean ====
section
/-! DEFINITION. The command syntax of R80 and the pseudo-instruction `HASHWHOLE` of R81. Where R80 leaves the surface open
(blanks, the digits of a byte and of a count), log 14 says what is read. -/

namespace Sys2Proof.Machine

/-- R81: `HASHWHOLE payload` expands to `INIT`, `FINAL payload`, `READ`. -/
def hashWhole (payload : List Byte) : List Instr := [.init, .final payload, .read]

/-- The value of a hexadecimal digit; `A`-`F` and `a`-`f` mean the same in literals (R7). -/
def hexDigitValue (c : Char) : Option Nat :=
  if '0' ≤ c ∧ c ≤ '9' then some (c.toNat - 48)
  else if 'a' ≤ c ∧ c ≤ 'f' then some (c.toNat - 87)
  else if 'A' ≤ c ∧ c ≤ 'F' then some (c.toNat - 55)
  else none

/-- The bytes of an even number of hexadecimal digits. -/
def hexPairs : List Char → Option (List Byte)
  | [] => some []
  | hi :: lo :: rest =>
    match hexDigitValue hi, hexDigitValue lo, hexPairs rest with
    | some x, some y, some bytes => some (BitVec.ofNat 8 (16 * x + y) :: bytes)
    | _, _, _ => none
  | [_] => none

/-- The ASCII bytes of a string's characters. -/
def asciiBytes : List Char → Option (List Byte)
  | [] => some []
  | c :: cs =>
    match asciiBytes cs with
    | some bytes => if c.toNat < 128 then some (BitVec.ofNat 8 c.toNat :: bytes) else none
    | none => none

/-- A count in decimal digits, at least one. -/
def decimalValue (digits : List Char) : Option Nat :=
  if digits.isEmpty then none else some (digits.foldl (fun v c => 10 * v + (c.toNat - 48)) 0)

/-- The only blank is the space character: DESIGN CHOICE, R80 is silent (log 14). -/
def skipBlanks (cs : List Char) : List Char := cs.dropWhile (· == ' ')

/-- The double quote. -/
def quoteMark : Char := Char.ofNat 34

/-- `"..."`, after its opening quote. Every character up to the closing quote is one of the string, a `;` too, and begins no
comment there: DESIGN CHOICE, R80 is silent (log 14). -/
def readString (cs : List Char) : Option (List Byte × List Char) :=
  match asciiBytes (cs.takeWhile (· != quoteMark)), cs.dropWhile (· != quoteMark) with
  | some bytes, _ :: rest => some (bytes, rest)
  | _, _ => none

/-- `hex:...`, after its colon. -/
def readHex (cs : List Char) : Option (List Byte × List Char) :=
  match hexPairs (cs.takeWhile fun c => (hexDigitValue c).isSome) with
  | some bytes => some (bytes, cs.dropWhile fun c => (hexDigitValue c).isSome)
  | none => none

/-- `rep(0x61, 64)`, after its opening bracket: two hexadecimal digits, a comma, a decimal count. Blanks are read before and
after each of them: DESIGN CHOICE, R80 is silent (log 14). -/
def readRep (cs : List Char) : Option (List Byte × List Char) :=
  match skipBlanks cs with
  | '0' :: 'x' :: hi :: lo :: rest =>
    match hexPairs [hi, lo], skipBlanks rest with
    | some [b], ',' :: rest =>
      match decimalValue ((skipBlanks rest).takeWhile Char.isDigit),
          skipBlanks ((skipBlanks rest).dropWhile Char.isDigit) with
      | some n, ')' :: rest => some (List.replicate n b, rest)
      | _, _ => none
    | _, _ => none
  | _ => none

/-- One of the four payload forms of R80. -/
def readItem (cs : List Char) : Option (List Byte × List Char) :=
  match cs.dropPrefix? [quoteMark] with
  | some rest => readString rest
  | none =>
    match cs.dropPrefix? ['h', 'e', 'x', ':'] with
    | some rest => readHex rest
    | none =>
      match cs.dropPrefix? ['r', 'e', 'p', '('] with
      | some rest => readRep rest
      | none =>
        match cs.dropPrefix? ['e', 'm', 'p', 't', 'y'] with
        | some rest => some ([], rest)
        | none => none

/-- Payload forms joined by `++` (R80); `fuel` bounds their number. Blanks are read around `++`: DESIGN CHOICE, R80 is silent
(log 14). -/
def readPayload : (fuel : Nat) → List Char → Option (List Byte × List Char)
  | 0, _ => none
  | fuel + 1, cs =>
    match readItem (skipBlanks cs) with
    | none => none
    | some (bytes, rest) =>
      match skipBlanks rest with
      | '+' :: '+' :: more =>
        match readPayload fuel more with
        | some (bytes', rest') => some (bytes ++ bytes', rest')
        | none => none
      | _ => some (bytes, rest)

/-- The end of a line, or a comment (R80), blanks before it read: DESIGN CHOICE, R80 is silent (log 14). -/
def atEnd (cs : List Char) : Bool :=
  match skipBlanks cs with
  | [] => true
  | c :: _ => c == ';'

/-- The payload that is all the rest of a line, after at least one blank: DESIGN CHOICE, R80 is silent (log 14). -/
def payloadOperand (cs : List Char) : Option (List Byte) :=
  match cs with
  | ' ' :: cs =>
    match readPayload (cs.length + 1) cs with
    | some (bytes, rest) => if atEnd rest then some bytes else none
    | none => none
  | _ => none

/-- One line of R80: at most one command or pseudo-instruction. Blanks before the mnemonic, and lines without one, are read:
DESIGN CHOICE, R80 is silent (log 14). -/
def assembleLine (line : List Char) : Option (List Instr) :=
  let cs := skipBlanks line
  if atEnd cs then some []
  else
    match cs.dropPrefix? ['I', 'N', 'I', 'T'], cs.dropPrefix? ['R', 'E', 'A', 'D'],
        cs.dropPrefix? ['A', 'B', 'S', 'O', 'R', 'B'], cs.dropPrefix? ['F', 'I', 'N', 'A', 'L'],
        cs.dropPrefix? ['H', 'A', 'S', 'H', 'W', 'H', 'O', 'L', 'E'] with
    | some rest, _, _, _, _ => if atEnd rest then some [.init] else none
    | _, some rest, _, _, _ => if atEnd rest then some [.read] else none
    | _, _, some rest, _, _ => (payloadOperand rest).map fun p => [.absorb p]
    | _, _, _, some rest, _ => (payloadOperand rest).map fun p => [.final p]
    | _, _, _, _, some rest => (payloadOperand rest).map hashWhole
    | _, _, _, _, _ => none

/-- The lines of a program, in order. -/
def assemble : List (List Char) → Option (List Instr)
  | [] => some []
  | line :: lines =>
    match assembleLine line, assemble lines with
    | some is, some rest => some (is ++ rest)
    | _, _ => none

/-- The transactions of a list of commands (R80: "the assembler computes `lenb` as the payload's length"). -/
def transactions : List Instr → Option (List HostMove)
  | [] => some []
  | i :: is =>
    match transactions is with
    | some moves => if h : i.WellFormed then some (.command (encode i h) :: moves) else none
    | none => none

end Sys2Proof.Machine
end

