-- ==== Sys2Proof/Machine/Reference.lean ====
section
/-! DEFINITION. What the engine is claimed to compute, in the terms of R114 (the 16-word circular form of the schedule), R122
(a block is a function of `H` and 64 bytes), R137 and R138 (a session is a message). Claims relate `exec` to these. -/

namespace Sys2Proof.Machine

/-! ## A block as a function -/

/-- R114: the last 16 schedule words only, and `A..E`. -/
structure Lane where
  window : Vector Word 16
  work : Working
deriving DecidableEq, Repr

/-- Drop the oldest word, append a new one. -/
def slide (v : Vector Word 16) (w : Word) : Vector Word 16 :=
  Vector.ofFn fun i => if h : i.val + 1 < 16 then v[i.val + 1] else w

/-- The block's 16 words (R113). -/
def blockWindow (blk : Vector Byte 64) : Vector Word 16 :=
  Vector.ofFn fun i => be32 blk[4 * i.val] blk[4 * i.val + 1] blk[4 * i.val + 2] blk[4 * i.val + 3]

/-- Round `t` on `W[t]`, the oldest word of the window, with `W[t + 16]` made for later (R114). -/
def laneStep (l : Lane) (t : Fin 80) : Lane :=
  ⟨slide l.window (rotateLeft1 (l.window[13] ^^^ l.window[8] ^^^ l.window[2] ^^^ l.window[0])),
    roundUpdate t l.window[0] l.work⟩

/-- The 80 rounds on the 16-word window, in ascending order. -/
@[irreducible] def runLane (l : Lane) : Lane := (List.finRange 80).foldl laneStep l

/-- R122, R123: the block procedure as a function `(H, BLK) -> H'`. -/
def blockFunction (h : Hash) (blk : Vector Byte 64) : Hash :=
  addWorking h (runLane ⟨blockWindow blk, ⟨h.h0, h.h1, h.h2, h.h3, h.h4⟩⟩).work

/-! ## A message as a digest -/

/-- The whole blocks of a buffer, in order (R111). -/
def blocksOf (p : List Byte) : List (Vector Byte 64) :=
  (List.finRange (p.length / 64)).map fun (k : Fin (p.length / 64)) => blockAt p k k.isLt

/-- `H` after the blocks of `p`, from `h` (R111). -/
def chain (h : Hash) (p : List Byte) : Hash := (blocksOf p).foldl blockFunction h

/-- R135: the digest of a whole message; the SHA-1 digest when the message is shorter than `2^61` bytes (R138). -/
def digestOf (message : List Byte) : Hash := chain iv (pad message (bitCount message))

/-! ## A session as a message -/

/-- The payload bytes accepted since the last `INIT` or reset, and whether the session is finalized (R27, R136). -/
structure Session where
  message : List Byte
  closed : Bool
deriving DecidableEq, Repr

/-- The session after a command, and the command's response (R131 to R136). -/
def Session.after (a : Session) : Instr → Session × Response
  | .init => (⟨[], false⟩, plainResponse .ok)
  | .absorb payload =>
    if a.closed then (a, plainResponse .sessionClosed)
    else if payload.length % 64 ≠ 0 then (a, plainResponse .unalignedChunk)
    else (⟨a.message ++ payload, false⟩, plainResponse .ok)
  | .final payload =>
    if a.closed then (a, plainResponse .sessionClosed)
    else (⟨a.message ++ payload, true⟩, plainResponse .ok)
  | .read => (⟨a.message, true⟩, digestResponse (digestOf a.message))

/-- The session after a move of the host, and the responses it returns: one to a transaction, none to a reset (R71, R172). -/
def Session.afterMove (a : Session) : HostMove → Session × List Response
  | .command tx =>
    match decode tx with
    | .ok i => ((a.after i).1, [(a.after i).2])
    | .error _ => (a, [plainResponse .illegalCommand])
  | .reset => (⟨[], false⟩, [])
  | .resetDuring _ => (⟨[], false⟩, [])

/-- The session after a script of moves, and all the responses. -/
def Session.afterMoves : Session → List HostMove → Session × List Response
  | a, [] => (a, [])
  | a, m :: ms =>
    (((a.afterMove m).1.afterMoves ms).1, (a.afterMove m).2 ++ ((a.afterMove m).1.afterMoves ms).2)

/-- Commands one after the other, each on the state the one before left (R62). -/
def execAll : List Instr → State → Host.Outcome State Fault Refusal
  | [], s => .next s
  | i :: is, s =>
    match exec i s with
    | .next t => execAll is t
    | .fault f => .fault f
    | .refused r => .refused r

/-- The engine's registers hold the session: `LEN` its bit length (R27), `FIN` whether it is finalized (R28), `H` the chained
blocks or, once finalized, the digest (R21, R133). -/
def Represents (a : Session) (s : State) : Prop :=
  s.fin = a.closed ∧
  s.len = bitCount a.message ∧
  (a.closed = true → s.hash = digestOf a.message) ∧
  (a.closed = false → s.hash = chain iv a.message ∧ a.message.length % 64 = 0)

end Sys2Proof.Machine
end

