-- ==== Sys2Proof/Safety.lean ====
section
/-! DEFINITION. What counts as a safe step, what a run keeps, and what the host can see. -/

namespace Sys2Proof.Machine

/-- A safe step goes on: the machine neither faults nor refuses (R130: "Step 4 cannot fail"; R153). -/
def GoesOn (o : Host.Outcome State Fault Refusal) : Prop := ∃ t, o = .next t

/-- One record was returned between `s` and `t`, with this status (R71, R79). -/
def AnsweredWith (status : Status) (s t : State) : Prop :=
  ∃ r, t.responses = s.responses ++ [r] ∧ r.status = status

/-- R27: "While the session is not finalized, `LEN` is a multiple of 512". -/
abbrev OpenLengthAligned (s : State) : Prop := s.fin = false → s.len.toNat % 512 = 0

/-- Everything a response can depend on (R20, R33), with what the host has said and heard. Scratch is not in it (R25). -/
structure Visible where
  hash : Hash
  len : BitCount
  fin : Bool
  host : List HostMove
  responses : List Response
deriving DecidableEq, Repr

def State.visible (s : State) : Visible := ⟨s.hash, s.len, s.fin, s.host, s.responses⟩

/-- The architectural registers alone (R20). -/
def SameRegisters (s t : State) : Prop := t.hash = s.hash ∧ t.len = s.len ∧ t.fin = s.fin

/-- Scratch, which R36 leaves "unchanged or any" (R20, R25). -/
def SameScratch (s t : State) : Prop :=
  t.work = s.work ∧ t.sched = s.sched ∧ t.blk = s.blk ∧ t.t = s.t ∧ t.kblk = s.kblk

/-- What no command touches: the moves the host has still to make, and the free values' index. -/
def SameEnvironment (s t : State) : Prop := t.host = s.host ∧ t.draws = s.draws

end Sys2Proof.Machine
end

