-- ==== Sys2Proof/Certificates/Slice0/Obligations.lean ====
section
/-! DEFINITION. What is claimed of the model, from the numbered rules of spec/. Scratch after a command is claimed nowhere
beyond what R77, R131, R132, R134 and R112 to R119 say of it, and no claim rests on a free value or on a register at a reset
value the spec does not give. -/

open Sys2Proof Sys2Proof.Machine

/-! ## Command words (30_encoding.md) -/

/-- The words of 95_test_vectors.md section 3.5 (a few of them) stand for the commands that section names. -/
def Obligations.SpecWordsDecode : Prop :=
  ∀ tx : Transaction,
    (tx.word = 0x2000000000000000 → decode tx = .ok .init) ∧
    (tx.word = 0x400000000000003F → decode tx = .ok (.absorb tx.payload) ∧ tx.payload.length = 63) ∧
    (tx.word = 0x6000000000000003 → decode tx = .ok (.final tx.payload) ∧ tx.payload.length = 3) ∧
    (tx.word = 0x7FFFFFFFFFFFFFFF → decode tx = .ok (.final tx.payload) ∧ tx.payload.length = 2 ^ 61 - 1) ∧
    (tx.word = 0x8000000000000000 → decode tx = .ok .read) ∧
    (tx.word = 0 → decode tx = .error (.reservedOp 0)) ∧
    (tx.word = 0x8000000000000014 → decode tx = .error (.reservedLength 4 20))

/-- R82: the decoding procedure branch by branch, the status of a reserved word, the encoding, and that each undoes the
other. -/
def Obligations.DecodeAndEncodeAreInverse : Prop :=
  (∀ tx : Transaction,
    let op := tx.word.extractLsb' 61 3
    let lenb := tx.word.extractLsb' 0 61
    (op = 0b001 → lenb = 0 → decode tx = .ok .init) ∧
    (op = 0b010 → decode tx = .ok (.absorb tx.payload)) ∧
    (op = 0b011 → decode tx = .ok (.final tx.payload)) ∧
    (op = 0b100 → lenb = 0 → decode tx = .ok .read) ∧
    (op ∈ [0b000, 0b101, 0b110, 0b111] ∨ (op ∈ [0b001, 0b100] ∧ lenb ≠ 0) → ∃ e, decode tx = .error e) ∧
    tx.payload.length = lenb.toNat) ∧
  (∀ (tx : Transaction) (e : DecodeError) (s : State), decode tx = .error e →
    ∃ t, execTransaction tx s = .next t ∧ AnsweredWith .illegalCommand s t) ∧
  (∀ i : Instr, encodeWord i =
    match i with
    | .init => 0b001#3 ++ 0#61
    | .absorb p => 0b010#3 ++ BitVec.ofNat 61 p.length
    | .final p => 0b011#3 ++ BitVec.ofNat 61 p.length
    | .read => 0b100#3 ++ 0#61) ∧
  (∀ (i : Instr) (h : i.WellFormed),
    (encode i h).word = encodeWord i ∧ (encode i h).payload = i.payload ∧ decode (encode i h) = .ok i) ∧
  (∀ (tx : Transaction) (i : Instr), decode tx = .ok i → ∃ h : i.WellFormed, encode i h = tx)

/-- R75: a word selects a row by mask and match exactly when it decodes to that row's command; no word matches two rows; a
word that matches none is reserved. -/
def Obligations.OpcodeMapSelectsTheCommand : Prop :=
  (∀ tx : Transaction,
    (tx.word &&& 0xFFFFFFFFFFFFFFFF = 0x2000000000000000 ↔ decode tx = .ok .init) ∧
    (tx.word &&& 0xE000000000000000 = 0x4000000000000000 ↔ decode tx = .ok (.absorb tx.payload)) ∧
    (tx.word &&& 0xE000000000000000 = 0x6000000000000000 ↔ decode tx = .ok (.final tx.payload)) ∧
    (tx.word &&& 0xFFFFFFFFFFFFFFFF = 0x8000000000000000 ↔ decode tx = .ok .read)) ∧
  (∀ (tx : Transaction) (m : Mnemonic), m.selects tx.word = true ↔ ∃ i, decode tx = .ok i ∧ i.mnemonic = m) ∧
  (∀ (w : CommandWord) (m n : Mnemonic), m.selects w = true → n.selects w = true → m = n) ∧
  (∀ tx : Transaction, (∀ m : Mnemonic, m.selects tx.word = false) → ∃ e, decode tx = .error e)

/-- R76: `n = zext_64(w[60:0])`, and the bit count `8 * n`, computed as `n << 3`, does not overflow. -/
def Obligations.BitCountOfAChunkNeverOverflows : Prop :=
  ∀ tx : Transaction,
    tx.payload.length = ((tx.word.extractLsb' 0 61).setWidth 64).toNat ∧
    bitCount tx.payload = (tx.word.extractLsb' 0 61).setWidth 64 <<< 3 ∧
    (bitCount tx.payload).toNat = 8 * tx.payload.length

/-- R77 and R154: a reserved word gets `IllegalCommand`, its payload is discarded and no state changes; every other word is a
command. -/
def Obligations.ReservedWordsAreRejected : Prop :=
  ∀ (tx : Transaction) (s : State) (rest : List HostMove), s.host = .command tx :: rest →
    let op := tx.word.extractLsb' 61 3
    let lenb := tx.word.extractLsb' 0 61
    let reserved := op ∈ [0b000, 0b101, 0b110, 0b111] ∨ (op ∈ [0b001, 0b100] ∧ lenb ≠ 0)
    (reserved →
      step s = .next { s with host := rest, responses := s.responses ++ [⟨.illegalCommand, 0, []⟩] }) ∧
    (¬reserved → ∃ i, decode tx = .ok i)

/-! ## The step (R6, R71) and reset (R170) -/

/-- A step runs the command the host presents, with that transaction taken from the host's list and nothing else changed. -/
def Obligations.StepRunsTheDecodedCommand : Prop :=
  ∀ (s : State) (tx : Transaction) (rest : List HostMove) (i : Instr),
    s.host = .command tx :: rest → decode tx = .ok i → step s = exec i { s with host := rest }

/-- The model's choice of log 3, read from R165 and R171: with nothing presented, the engine waits and keeps its state. -/
def Obligations.EngineWaitsWhenNothingIsPresented : Prop :=
  ∀ s : State, s.host = [] → step s = .next s

/-- A table word placed by `withFetchWord` is the next instruction that runs, on the state it was placed in (log 9). -/
def Obligations.PlacedWordRunsNext : Prop :=
  ∀ (s : State) (nbits w : Nat) (i : Instr),
    decodeTableWord nbits w = some i → step (s.withFetchWord nbits w) = exec i s

/-- R34 and R22: the architectural registers after reset, phase Fresh. -/
def Obligations.ResetValuesOfTheRegisters : Prop :=
  State.reset.hash = ⟨0x67452301, 0xEFCDAB89, 0x98BADCFE, 0x10325476, 0xC3D2E1F0⟩ ∧
  State.reset.len = 0 ∧ State.reset.fin = false ∧ State.reset.phase = .fresh

/-- R170 and R172: reset, between commands or during one, leaves the registers as `INIT` does, in any state, and returns no
response. -/
def Obligations.ResetAbandonsTheSession : Prop :=
  ∀ (s : State) (m : HostMove) (rest : List HostMove), s.host = m :: rest →
    (m = .reset ∨ ∃ tx, m = .resetDuring tx) →
    ∃ t u, step s = .next t ∧
      t.hash = ⟨0x67452301, 0xEFCDAB89, 0x98BADCFE, 0x10325476, 0xC3D2E1F0⟩ ∧ t.len = 0 ∧ t.fin = false ∧
      t.phase = .fresh ∧ t.host = rest ∧ t.responses = s.responses ∧
      exec .init s = .next u ∧ SameRegisters u t

/-! ## Words and buffers (00_scope.md, 20_memory.md) -/

/-- R9: `rotl32` as shifts on the unbounded integer, and bit by bit; the three rotations of the engine. -/
def Obligations.RotationMovesEveryBit : Prop :=
  (∀ (x : Word) (n : Nat), 1 ≤ n → n ≤ 31 →
    (rotl32 x n).toNat = ((x.toNat <<< n) ||| (x.toNat >>> (32 - n))) % 2 ^ 32 ∧
    ∀ i < 32, (rotl32 x n).getLsbD i = x.getLsbD ((i + 32 - n) % 32)) ∧
  (∀ x : Word, rotateLeft1 x = rotl32 x 1 ∧ rotateLeft5 x = rotl32 x 5 ∧ rotateLeft30 x = rotl32 x 30)

/-- R59: the result of `MemRead` and the effect of `MemWrite` within their preconditions. -/
def Obligations.MessageBufferIsBigEndian : Prop :=
  (∀ (p : List Byte) (addr : Nat) (h : addr + 1 ≤ p.length), memRead p addr 1 = some p[addr]) ∧
  (∀ (p : List Byte) (addr : Nat) (h : addr + 4 ≤ p.length),
    memRead p addr 4 = some (be32 p[addr] p[addr + 1] p[addr + 2] p[addr + 3])) ∧
  (∀ (p : List Byte) (addr : Nat) (h : addr + 8 ≤ p.length),
    memRead p addr 8 = some (be32 p[addr] p[addr + 1] p[addr + 2] p[addr + 3] ++
      be32 p[addr + 4] p[addr + 5] p[addr + 6] p[addr + 7])) ∧
  (∀ (p : List Byte) (n : Nat) (v : BitVec (8 * n)), ∃ q, memWrite p p.length n v = some q ∧
    q.length = p.length + n ∧ q.take p.length = p ∧
    ∀ j < n, q[p.length + j]? = some (v.extractLsb' (8 * (n - 1 - j)) 8))

/-- R53 and R113: word `i` loaded for block `k` of `P` is the big-endian word at offset `64k + 4i`. -/
def Obligations.BlockWordsComeFromTheBuffer : Prop :=
  ∀ (p : List Byte) (s : State) (k : Fin (p.length / 64)) (i : Nat) (hi : i < 16),
    ∃ t, loadSchedule (fetchBlock p s k) = .ok t ∧ memRead p (64 * k.val + 4 * i) 4 = some t.sched[i]

/-- R56: the digest as words, as a 160-bit value, as bytes and as hexadecimal digits. -/
def Obligations.DigestViewsAgree : Prop :=
  ∀ h : Hash,
    h.digest.toNat = h.h0.toNat * 2 ^ 128 + h.h1.toNat * 2 ^ 96 + h.h2.toNat * 2 ^ 64 + h.h3.toNat * 2 ^ 32 + h.h4.toNat ∧
    (wordsToHex h.words).length = 40 ∧
    ∀ j < 20,
      (h.words.flatMap (bigEndianBytes 4))[j]? = some (h.digest.extractLsb' (152 - 8 * j) 8) ∧
      (wordsToHex h.words)[2 * j]? = some (hexDigit (h.digest.extractLsb' (156 - 8 * j) 4)) ∧
      (wordsToHex h.words)[2 * j + 1]? = some (hexDigit (h.digest.extractLsb' (152 - 8 * j) 4))

/-! ## Codec (40_codec.md) -/

/-- R90 and R91: one big-endian word per four bytes; any other length is an error. -/
def Obligations.BytesToWordsGroupsByFour : Prop :=
  (∀ b : List Byte, b.length % 4 = 0 → ∃ ws, bytesToWords b = .ok ws ∧ ws.length = b.length / 4 ∧
    ∀ (j : Nat) (h : 4 * j + 3 < b.length),
      ws[j]? = some (be32 b[4 * j] b[4 * j + 1] b[4 * j + 2] b[4 * j + 3])) ∧
  (∀ b0 b1 b2 b3 : Byte, (be32 b0 b1 b2 b3).toNat =
    b0.toNat * 2 ^ 24 + b1.toNat * 2 ^ 16 + b2.toNat * 2 ^ 8 + b3.toNat) ∧
  (∀ b : List Byte, b.length % 4 ≠ 0 → bytesToWords b = .error .malformedWordConversion)

/-- R92 and R93: 8 lowercase digits a word, most significant first; no other character ever. -/
def Obligations.WordsToHexPrintsEightDigits : Prop :=
  (∀ ws : List Word, (wordsToHex ws).length = 8 * ws.length ∧
    ∀ (j : Nat) (hj : j < ws.length), ∀ d < 8,
      (wordsToHex ws)[8 * j + (7 - d)]? = some (hexDigit (ws[j].extractLsb' (4 * d) 4))) ∧
  (∀ v : BitVec 4, (v.toNat ≤ 9 → (hexDigit v).toNat = 0x30 + v.toNat) ∧
    (10 ≤ v.toNat → (hexDigit v).toNat = 0x61 + (v.toNat - 10)))

/-- R94: the two operations of the codec, one after the other, write each byte as its two digits. -/
def Obligations.HexOfWordsIsHexOfBytes : Prop :=
  ∀ b : List Byte, b.length % 4 = 0 → ∃ ws, bytesToWords b = .ok ws ∧
    wordsToHex ws = b.flatMap fun x => [hexDigit (x.extractLsb' 4 4), hexDigit (x.extractLsb' 0 4)]

/-! ## Padding (41_padding.md) -/

/-- R104: the closed form of the padded message, its length and the bounds on what is added. -/
def Obligations.PaddingClosedForm : Prop :=
  ∀ (chunk : List Byte) (total : BitCount),
    let n := chunk.length
    let z := (55 + 64 * n - n) % 64
    pad chunk total = chunk ++ [0x80] ++ List.replicate z 0x00 ++ be64bytes total ∧
    (pad chunk total).length = 64 * ((n + 8) / 64 + 1) ∧
    (pad chunk total).length = 64 * (n / 64 + if n % 64 ≤ 55 then 1 else 2) ∧
    n + 9 ≤ (pad chunk total).length ∧ (pad chunk total).length ≤ n + 72 ∧
    (n % 64 = 55 → (pad chunk total).length = n + 9) ∧ (n % 64 = 56 → (pad chunk total).length = n + 72)

/-- R106: the properties the source states, in the two-argument form, and the zeros between. -/
def Obligations.PaddingProperties : Prop :=
  ∀ (b : List Byte) (total : BitCount),
    (pad b total).length % 64 = 0 ∧
    (pad b total).take b.length = b ∧
    (pad b total)[b.length]? = some 0x80 ∧
    memRead (pad b total) ((pad b total).length - 8) 8 = some total ∧
    (∀ j, b.length < j → j < (pad b total).length - 8 → (pad b total)[j]? = some 0x00) ∧
    (b.length < 2 ^ 61 → (bitCount b).toNat = 8 * b.length)

/-- R55: the last 8 bytes are those of the total bit length, and words 14 and 15 of the last block are its two halves. -/
def Obligations.LengthSuffixIsWords14And15 : Prop :=
  ∀ (chunk : List Byte) (total : BitCount) (s : State) (k : Fin ((pad chunk total).length / 64)),
    k.val + 1 = (pad chunk total).length / 64 →
    (pad chunk total).drop ((pad chunk total).length - 8) = be64bytes total ∧
    ∃ t, loadSchedule (fetchBlock (pad chunk total) s k) = .ok t ∧
      t.sched[14] = total.extractLsb' 32 32 ∧ t.sched[15] = total.extractLsb' 0 32

/-- The reason R137 gives: padding after whole blocks is those blocks and the padding of the rest. -/
def Obligations.PaddingLeavesWholeBlocksAlone : Prop :=
  ∀ (whole rest : List Byte) (total : BitCount), whole.length % 64 = 0 →
    pad (whole ++ rest) total = whole ++ pad rest total

/-! ## Compression (42_compression.md) -/

/-- R113: the load step writes `W[0..15]` from `BLK`, and nothing else. -/
def Obligations.LoadWritesSixteenWords : Prop :=
  ∀ s : State, ∃ t, loadSchedule s = .ok t ∧
    (∀ (i : Nat) (h : i < 16),
      t.sched[i] = be32 s.blk[4 * i] s.blk[4 * i + 1] s.blk[4 * i + 2] s.blk[4 * i + 3]) ∧
    (∀ (i : Nat) (h : i < 80), 16 ≤ i → t.sched[i] = s.sched[i]) ∧
    bytesToWords s.blk.toList = .ok (t.sched.toList.take 16) ∧
    t = { s with sched := t.sched }

/-- R114: the recurrence of the schedule, from any state; `W[0..15]` stay, and only `W` and `T` are written. -/
def Obligations.ScheduleRecurrence : Prop :=
  ∀ s : State,
    (∀ (i : Nat) (h : i < 16), (expand s).sched[i] = s.sched[i]) ∧
    (∀ (i : Nat) (h : i < 80), 16 ≤ i → (expand s).sched[i] = rotl32 ((expand s).sched[i - 3] ^^^
      (expand s).sched[i - 8] ^^^ (expand s).sched[i - 14] ^^^ (expand s).sched[i - 16]) 1) ∧
    expand s = { s with t := (expand s).t, sched := (expand s).sched }

/-- R115: the four ranges of `t`, bit by bit. -/
def Obligations.RoundFunctionTruthTables : Prop :=
  ∀ (t : Fin 80) (b c d : Word), ∀ i < 32,
    (t.val ≤ 19 → (roundFunction t b c d).getLsbD i = if b.getLsbD i then c.getLsbD i else d.getLsbD i) ∧
    (20 ≤ t.val → t.val ≤ 39 →
      (roundFunction t b c d).getLsbD i = (b.getLsbD i != (c.getLsbD i != d.getLsbD i))) ∧
    (40 ≤ t.val → t.val ≤ 59 → (roundFunction t b c d).getLsbD i =
      decide (2 ≤ (b.getLsbD i).toNat + (c.getLsbD i).toNat + (d.getLsbD i).toNat)) ∧
    (60 ≤ t.val → (roundFunction t b c d).getLsbD i = (b.getLsbD i != (c.getLsbD i != d.getLsbD i)))

/-- R116: the four constants by range. -/
def Obligations.RoundConstantsByRange : Prop :=
  ∀ t : Fin 80,
    (t.val ≤ 19 → roundConstant t = 0x5A827999) ∧
    (20 ≤ t.val → t.val ≤ 39 → roundConstant t = 0x6ED9EBA1) ∧
    (40 ≤ t.val → t.val ≤ 59 → roundConstant t = 0x8F1BBCDC) ∧
    (60 ≤ t.val → roundConstant t = 0xCA62C1D6)

/-- R117: only the low 32 bits of the true five-term sum are kept. -/
def Obligations.RoundSumIsModulo32Bits : Prop :=
  ∀ (t : Fin 80) (w : Word) (r : Working),
    (roundSum t w r).toNat = ((rotl32 r.a 5).toNat + (roundFunction t r.b r.c r.d).toNat + r.e.toNat + w.toNat +
      (roundConstant t).toNat) % 2 ^ 32

/-- R118: `A..E` pass through the 80 updates in ascending order of `t`, each from the values before the round; only `A..E`
and `T` are written. -/
def Obligations.RoundsRunInAscendingOrder : Prop :=
  ∀ s : State, ∃ trace : Nat → Working, trace 0 = s.work ∧
    (∀ (t : Nat) (h : t < 80), trace (t + 1) =
      ⟨roundSum ⟨t, h⟩ s.sched[t] (trace t), (trace t).a, rotl32 (trace t).b 30, (trace t).c, (trace t).d⟩) ∧
    rounds s = { s with t := (rounds s).t, work := trace 80 }

/-- R112, R119 and R123: a block always ends; it is seeded from `H` and adds `A..E` into `H`, and it writes neither `LEN`,
`FIN`, `BLK` nor `KBLK`. -/
def Obligations.BlockFoldsWorkingRegistersIntoH : Prop :=
  ∀ s : State, ∃ u t, loadSchedule { s with work := ⟨s.hash.h0, s.hash.h1, s.hash.h2, s.hash.h3, s.hash.h4⟩ } = .ok u ∧
    compressBlock s = .ok t ∧ t.work = (rounds (expand u)).work ∧
    t.hash.h0 = s.hash.h0 + t.work.a ∧ t.hash.h1 = s.hash.h1 + t.work.b ∧ t.hash.h2 = s.hash.h2 + t.work.c ∧
    t.hash.h3 = s.hash.h3 + t.work.d ∧ t.hash.h4 = s.hash.h4 + t.work.e ∧
    t.len = s.len ∧ t.fin = s.fin ∧ t.blk = s.blk ∧ t.kblk = s.kblk ∧ SameEnvironment s t ∧ t.responses = s.responses

/-- R25 and R122: what scratch, `LEN` and `FIN` hold before a block cannot be seen in the `H`, `A..E` or `W` it leaves. -/
def Obligations.BlockDependsOnHashAndBytesAlone : Prop :=
  ∀ s s' : State, s.hash = s'.hash → s.blk = s'.blk →
    ∃ t t', compressBlock s = .ok t ∧ compressBlock s' = .ok t' ∧
      t.hash = t'.hash ∧ t.work = t'.work ∧ t.sched = t'.sched

/-- R114 and R122: the block procedure over the 80-word schedule computes what an engine that keeps only the last 16 words,
reloaded for each block, computes. -/
def Obligations.BlockRefinesSixteenWordSchedule : Prop :=
  ∀ s : State, ∃ t, compressBlock s = .ok t ∧ t.hash = blockFunction s.hash s.blk

/-- R110 and R111: `compress` cannot fail, chains `H` through the blocks in ascending order, writes neither `LEN` nor `FIN`,
does nothing on no block, and may be split at block boundaries. -/
def Obligations.CompressChainsBlocksInOrder : Prop :=
  (∀ (p : List Byte) (s : State), ∃ t, compress p s = .ok t ∧ t.hash = chain s.hash p ∧
    t.len = s.len ∧ t.fin = s.fin ∧ SameEnvironment s t ∧ t.responses = s.responses) ∧
  (∀ s : State, compress [] s = .ok s) ∧
  (∀ (p q : List Byte) (s : State), p.length % 64 = 0 →
    ∃ t u v, compress p s = .ok t ∧ compress q t = .ok u ∧ compress (p ++ q) s = .ok v ∧ SameRegisters u v)

/-! ## Commands (43_commands.md, 60_exceptions.md) -/

/-- R131: `INIT` in every phase; nothing but `H`, `LEN`, `FIN` and the response changes, scratch included. -/
def Obligations.InitStartsAFreshSession : Prop :=
  ∀ s : State, exec .init s = .next { s with
    hash := ⟨0x67452301, 0xEFCDAB89, 0x98BADCFE, 0x10325476, 0xC3D2E1F0⟩
    len := 0
    fin := false
    responses := s.responses ++ [⟨.ok, 0, []⟩] }

/-- R132: `ABSORB` fails closed first, unaligned next; accepted, it folds its blocks into `H`, counts its bits, and leaves
`FIN` at 0; of no bytes it changes nothing; several blocks in one command are the blocks in several. -/
def Obligations.AbsorbFoldsWholeBlocks : Prop :=
  (∀ (p : List Byte) (s : State), s.fin = true ∨ p.length % 64 ≠ 0 → ∃ t, exec (.absorb p) s = .next t ∧
    AnsweredWith (if s.fin then .sessionClosed else .unalignedChunk) s t ∧ SameRegisters s t) ∧
  (∀ (p : List Byte) (s : State), s.fin = false → p.length % 64 = 0 →
    ∃ t, exec (.absorb p) s = .next t ∧ t.hash = chain s.hash p ∧
      t.len = s.len + BitVec.ofNat 64 (8 * p.length) ∧ t.fin = false ∧
      t.responses = s.responses ++ [⟨.ok, 0, []⟩] ∧ SameEnvironment s t) ∧
  (∀ s : State, s.fin = false → exec (.absorb []) s = .next { s with responses := s.responses ++ [⟨.ok, 0, []⟩] }) ∧
  (∀ (p q : List Byte) (s : State), s.fin = false → p.length % 64 = 0 → q.length % 64 = 0 →
    ∃ t u, execAll [.absorb p, .absorb q] s = .next t ∧ exec (.absorb (p ++ q)) s = .next u ∧ SameRegisters t u)

/-- R151: an `ABSORB` of a length that is not a multiple of 64, the session open, is rejected whole. -/
def Obligations.UnalignedChunkIsRejectedWhole : Prop :=
  ∀ (p : List Byte) (s : State), s.fin = false → p.length % 64 ≠ 0 →
    ∃ t, exec (.absorb p) s = .next t ∧ t.responses = s.responses ++ [⟨.unalignedChunk, 0, []⟩] ∧
      SameRegisters s t ∧ SameEnvironment s t

/-- R133: `FINAL` fails on a closed session; accepted, it counts its bits once, pads with the total, folds the padded blocks
and sets `FIN`. -/
def Obligations.FinalPadsAndFinalizes : Prop :=
  ∀ (p : List Byte) (s : State),
    (s.fin = true → ∃ t, exec (.final p) s = .next t ∧ AnsweredWith .sessionClosed s t ∧ SameRegisters s t) ∧
    (s.fin = false → ∃ t, exec (.final p) s = .next t ∧ t.len = s.len + BitVec.ofNat 64 (8 * p.length) ∧
      t.hash = chain s.hash (pad p t.len) ∧ (pad p t.len).length / 64 = (p.length + 8) / 64 + 1 ∧ t.fin = true ∧
      t.responses = s.responses ++ [⟨.ok, 0, []⟩] ∧ SameEnvironment s t)

/-- R152: after finalization every `ABSORB` and `FINAL` is rejected with `SessionClosed`, of any length, and the digest stays
readable. -/
def Obligations.ClosedSessionRejectsIngestion : Prop :=
  ∀ (i : Instr) (p : List Byte) (s : State), s.fin = true → i = .absorb p ∨ i = .final p →
    ∃ t, exec i s = .next t ∧ t.responses = s.responses ++ [⟨.sessionClosed, 0, []⟩] ∧
      SameRegisters s t ∧ SameEnvironment s t ∧
      ∃ u, exec .read t = .next u ∧ u.responses = t.responses ++ [digestResponse s.hash]

/-- R134: `READ` of a finalized session changes nothing; of an open one it takes the empty final chunk first, as `FINAL`
would; it always answers `OK` with the digest in both views. -/
def Obligations.ReadReturnsTheDigest : Prop :=
  (∀ s : State, s.fin = true → exec .read s = .next { s with
    responses := s.responses ++
      [⟨.ok, s.hash.h0 ++ s.hash.h1 ++ s.hash.h2 ++ s.hash.h3 ++ s.hash.h4, wordsToHex s.hash.words⟩] }) ∧
  (∀ s : State, s.fin = false → ∃ t, exec .read s = .next t ∧ t.len = s.len ∧
    t.hash = chain s.hash (pad [] s.len) ∧ (pad [] s.len).length = 64 ∧ t.fin = true ∧ SameEnvironment s t ∧
    t.responses = s.responses ++ [digestResponse t.hash] ∧
    ∃ u v, exec (.final []) s = .next u ∧ exec .read u = .next v ∧ SameRegisters v t ∧
      v.responses = u.responses ++ [digestResponse t.hash])

/-- R134: `READ` twice returns the same record, and the second changes no register. -/
def Obligations.ReadIsIdempotent : Prop :=
  ∀ s : State, ∃ t r, exec .read s = .next t ∧ t.responses = s.responses ++ [r] ∧ r.status = .ok ∧
    exec .read t = .next { t with responses := t.responses ++ [r] }

/-- R130 and R155: which error a transaction gets, in the fixed order; `OK` only when none applies. -/
def Obligations.ErrorsComeInTheFixedOrder : Prop :=
  ∀ (tx : Transaction) (s : State), ∃ t r, execTransaction tx s = .next t ∧ t.responses = s.responses ++ [r] ∧
    ((∃ e, decode tx = .error e) → r.status = .illegalCommand) ∧
    (∀ p, (decode tx = .ok (.absorb p) ∨ decode tx = .ok (.final p)) → s.fin = true → r.status = .sessionClosed) ∧
    (∀ p, decode tx = .ok (.absorb p) → s.fin = false → p.length % 64 ≠ 0 → r.status = .unalignedChunk) ∧
    (∀ p, decode tx = .ok (.absorb p) → s.fin = false → p.length % 64 = 0 → r.status = .ok) ∧
    (∀ p, decode tx = .ok (.final p) → s.fin = false → r.status = .ok) ∧
    (decode tx = .ok .init ∨ decode tx = .ok .read → r.status = .ok)

/-- R156: a transaction that ends in an error changes no register, and its record carries the status alone. -/
def Obligations.ErrorsLeaveEveryRegister : Prop :=
  ∀ (tx : Transaction) (s t : State) (r : Response), execTransaction tx s = .next t →
    t.responses = s.responses ++ [r] → r.status ≠ .ok →
    SameRegisters s t ∧ SameEnvironment s t ∧ r.digest = 0 ∧ r.hex = []

/-- R157: there is no sticky error state. What was answered before changes nothing in what a transaction does; two states with
the same `FIN` judge it alike; and after a rejected transaction the next one is answered, and leaves the registers, as if the
rejected one had not been. -/
def Obligations.EarlierResponsesAreForgotten : Prop :=
  (∀ (tx : Transaction) (s : State) (earlier : List Response), ∃ t r,
    execTransaction tx s = .next t ∧ t.responses = s.responses ++ [r] ∧
    execTransaction tx { s with responses := earlier } = .next { t with responses := earlier ++ [r] }) ∧
  (∀ (tx : Transaction) (s s' : State), s.fin = s'.fin → ∃ status t t',
    execTransaction tx s = .next t ∧ AnsweredWith status s t ∧
    execTransaction tx s' = .next t' ∧ AnsweredWith status s' t') ∧
  (∀ (rejected tx : Transaction) (s t : State) (r : Response), execTransaction rejected s = .next t →
    t.responses = s.responses ++ [r] → r.status ≠ .ok → ∃ u v q,
      execTransaction tx t = .next u ∧ u.responses = t.responses ++ [q] ∧
      execTransaction tx s = .next v ∧ v.responses = s.responses ++ [q] ∧ SameRegisters v u)

/-- R79: the status codes, and that no other code is ever returned. -/
def Obligations.StatusCodes : Prop :=
  Status.ok.code = 0b000 ∧ Status.unalignedChunk.code = 0b001 ∧ Status.sessionClosed.code = 0b010 ∧
  Status.malformedWordConversion.code = 0b011 ∧ Status.illegalCommand.code = 0b100 ∧
  ∀ status : Status, status.code ∉ [0b101, 0b110, 0b111]

/-- R78: only a `READ` that answers `OK` returns a digest; every other record has a zero digest and no characters. -/
def Obligations.OnlyReadReturnsADigest : Prop :=
  ∀ (tx : Transaction) (s : State), ∃ t r, execTransaction tx s = .next t ∧ t.responses = s.responses ++ [r] ∧
    (decode tx = .ok .read → r = ⟨.ok, t.hash.h0 ++ t.hash.h1 ++ t.hash.h2 ++ t.hash.h3 ++ t.hash.h4,
      wordsToHex [t.hash.h0, t.hash.h1, t.hash.h2, t.hash.h3, t.hash.h4]⟩) ∧
    (decode tx ≠ .ok .read → r.digest = 0 ∧ r.hex = []) ∧
    r.bits.extractLsb' 160 3 = r.status.code ∧ r.bits.extractLsb' 0 160 = r.digest

/-- R71, R153 and R79: no run of any length stops; no response ever carries `MalformedWordConversion`, and codes stay 0, 1, 2
or 4. -/
def Obligations.NoRunReachesMalformedWordConversion : Prop :=
  ∀ (n : Nat) (s : State), ∃ t, Host.Core.run Sys2Proof.core n s = .next t ∧
    ∃ rs, t.responses = s.responses ++ rs ∧ rs.length ≤ n ∧
      ∀ r ∈ rs, r.status ≠ .malformedWordConversion ∧ r.status.code ∈ [0, 1, 2, 4]

/-! ## The session (10_state.md, 43_commands.md section 3) -/

/-- R28: `INIT` and reset clear `FIN`, and nothing else does; an accepted `FINAL` and a `READ` set it, and nothing else does. -/
def Obligations.FinalizationIsPermanent : Prop :=
  (∀ (i : Instr) (s : State), ∃ t, exec i s = .next t ∧
    (s.fin = true → i ≠ .init → t.fin = true ∧ t.hash = s.hash ∧ t.len = s.len) ∧
    (s.fin = false → t.fin = true → i = .read ∨ ∃ p, i = .final p) ∧
    (i = .init → t.fin = false) ∧ ((i = .read ∨ ∃ p, i = .final p) → t.fin = true)) ∧
  State.reset.fin = false ∧
  (∀ (s : State) (rest : List HostMove), (s.host = .reset :: rest ∨ ∃ tx, s.host = .resetDuring tx :: rest) →
    ∃ t, step s = .next t ∧ t.fin = false) ∧
  (∀ s t : State, step s = .next t → s.fin = true → t.fin = false →
    ∃ rest, s.host = .reset :: rest ∨ (∃ tx, s.host = .resetDuring tx :: rest) ∨
      ∃ tx, s.host = .command tx :: rest ∧ decode tx = .ok .init)

/-- R136: the transition table. That an `ABSORB` of some bytes leads to Absorbing is claimed while `LEN` does not wrap (log 8);
that the session stays open is claimed always. -/
def Obligations.SessionTransitionTable : Prop :=
  ∀ s : State,
    (∃ t, exec .init s = .next t ∧ AnsweredWith .ok s t ∧ t.phase = .fresh) ∧
    (∃ t, exec .read s = .next t ∧ AnsweredWith .ok s t ∧ t.phase = .finalized ∧
      (s.phase = .finalized → SameRegisters s t)) ∧
    (∀ p, s.phase ≠ .finalized →
      ∃ t, exec (.final p) s = .next t ∧ AnsweredWith .ok s t ∧ t.phase = .finalized) ∧
    (∀ p, s.phase ≠ .finalized → p.length % 64 = 0 →
      ∃ t, exec (.absorb p) s = .next t ∧ AnsweredWith .ok s t ∧ t.phase ≠ .finalized ∧
        (p = [] → SameRegisters s t) ∧
        (p ≠ [] → s.len.toNat + 8 * p.length < 2 ^ 64 → t.phase = .absorbing)) ∧
    (∀ p, s.phase ≠ .finalized → p.length % 64 ≠ 0 →
      ∃ t, exec (.absorb p) s = .next t ∧ AnsweredWith .unalignedChunk s t ∧ SameRegisters s t) ∧
    (∀ p, s.phase = .finalized →
      (∃ t, exec (.absorb p) s = .next t ∧ AnsweredWith .sessionClosed s t ∧ SameRegisters s t) ∧
      ∃ t, exec (.final p) s = .next t ∧ AnsweredWith .sessionClosed s t ∧ SameRegisters s t) ∧
    (∀ (tx : Transaction) (e : DecodeError), decode tx = .error e →
      ∃ t, execTransaction tx s = .next t ∧ AnsweredWith .illegalCommand s t ∧ SameRegisters s t)

/-- R27: while the engine's registers hold a session, every command leaves `LEN` at eight times the bytes accepted, modulo
2^64, and at a multiple of 512 while the session is open. -/
def Obligations.LengthCountsTheAcceptedBytes : Prop :=
  ∀ (a : Session) (s : State) (i : Instr), Represents a s → ∃ t, exec i s = .next t ∧
    t.len = BitVec.ofNat 64 (8 * (a.after i).1.message.length) ∧ (t.fin = false → t.len.toNat % 512 = 0)

/-- The second half of R27 as an invariant of every step, from any state that has it. -/
def Obligations.OpenLengthStaysAligned : Prop :=
  ∀ s : State, OpenLengthAligned s → GoesOn (step s) ∧ ∀ t, step s = .next t → OpenLengthAligned t

/-- The machine right after reset has the invariant of `OpenLengthStaysAligned`. -/
def Obligations.OpenLengthAlignedAtReset : Prop := OpenLengthAligned State.reset

/-- R25 and R33: two machines that agree on `H`, `LEN`, `FIN`, on what the host will do and on what it has heard, agree on
them after any number of steps, whatever their scratch holds. -/
def Obligations.ScratchIsNeverSeen : Prop :=
  ∀ (n : Nat) (s s' : State), s.visible = s'.visible → ∃ t t', Host.Core.run Sys2Proof.core n s = .next t ∧
    Host.Core.run Sys2Proof.core n s' = .next t' ∧ t.visible = t'.visible

/-- R135 and R81: `HASHWHOLE` in any state returns the digest of its payload alone, and leaves the engine Finalized. -/
def Obligations.HashWholeReturnsTheDigest : Prop :=
  ∀ (p : List Byte) (s : State), hashWhole p = [.init, .final p, .read] ∧
    ∃ t, execAll (hashWhole p) s = .next t ∧
      t.hash = chain ⟨0x67452301, 0xEFCDAB89, 0x98BADCFE, 0x10325476, 0xC3D2E1F0⟩
        (pad p (BitVec.ofNat 64 (8 * p.length))) ∧
      t.responses = s.responses ++ [⟨.ok, 0, []⟩, ⟨.ok, 0, []⟩, ⟨.ok, t.hash.digest, wordsToHex t.hash.words⟩] ∧
      t.phase = .finalized

/-- R137: a message streamed in block-aligned chunks and a final chunk is answered as the whole message; and so it is when the
last chunk is aligned, sent with `ABSORB`, and `READ` finalizes. -/
def Obligations.StreamingEqualsHashingTheWhole : Prop :=
  ∀ (chunks : List (List Byte)) (last : List Byte) (s : State), (∀ c ∈ chunks, c.length % 64 = 0) →
    ∃ t u r, execAll (.init :: (chunks.map .absorb ++ [.final last, .read])) s = .next t ∧
      execAll (hashWhole (chunks.flatten ++ last)) s = .next u ∧
      t.responses.getLast? = some r ∧ u.responses.getLast? = some r ∧ r.status = .ok ∧
      (last.length % 64 = 0 →
        ∃ v, execAll (.init :: (chunks.map .absorb ++ [.absorb last, .read])) s = .next v ∧
          v.responses.getLast? = some r)

/-- R136 to R138: one command of the engine does to its registers what it does to the message they hold, and answers as the
message would: the digest is that of the bytes accepted since the session began. -/
def Obligations.EngineRefinesTheSession : Prop :=
  ∀ (a : Session) (s : State) (i : Instr), Represents a s → ∃ t, exec i s = .next t ∧
    Represents (a.after i).1 t ∧ t.responses = s.responses ++ [(a.after i).2] ∧ SameEnvironment s t

/-- The same over everything the host will ever do: the run answers, move by move, as the message would. -/
def Obligations.EveryRunRefinesTheSession : Prop :=
  ∀ (a : Session) (s : State), Represents a s →
    ∃ t, Host.Core.run Sys2Proof.core s.host.length s = .next t ∧ t.host = [] ∧
      Represents (a.afterMoves s.host).1 t ∧ t.responses = s.responses ++ (a.afterMoves s.host).2

/-- Reset holds the empty message, so the two refinements apply from it. -/
def Obligations.ResetHoldsTheEmptyMessage : Prop :=
  Represents ⟨[], false⟩ State.reset ∧ ∀ s : State, ∃ t, exec .init s = .next t ∧ Represents ⟨[], false⟩ t

/-! ## Assembler (30_encoding.md section 5) -/

/-- The examples of R80 and the expansion of R81, from text to command words and payloads. -/
def Obligations.AssemblerExamples : Prop :=
  assembleLine "INIT".toList = some [.init] ∧ encodeWord .init = 0x2000000000000000 ∧
  assembleLine "ABSORB rep(0x61, 64)".toList = some [.absorb (List.replicate 64 0x61)] ∧
  encodeWord (.absorb (List.replicate 64 0x61)) = 0x4000000000000040 ∧
  assembleLine "FINAL \"abc\" ; a comment".toList = some [.final [0x61, 0x62, 0x63]] ∧
  encodeWord (.final [0x61, 0x62, 0x63]) = 0x6000000000000003 ∧
  assembleLine "FINAL empty".toList = some [.final []] ∧ encodeWord (.final []) = 0x6000000000000000 ∧
  assembleLine "FINAL hex:616263 ++ empty".toList = some [.final [0x61, 0x62, 0x63]] ∧
  assembleLine "READ".toList = some [.read] ∧ encodeWord .read = 0x8000000000000000 ∧
  assembleLine "HASHWHOLE \"abc\"".toList = some [.init, .final [0x61, 0x62, 0x63], .read]
end

