-- ==== Sys2Proof/Laws/Codec.lean ====
section
/-! SUPPORT. The codec on lists of four bytes at a time. -/

namespace Sys2Proof.Machine

@[simp] theorem bytesToWords_nil : bytesToWords [] = .ok [] := rfl

theorem bytesToWords_cons (b0 b1 b2 b3 : Byte) (rest : List Byte) :
    bytesToWords (b0 :: b1 :: b2 :: b3 :: rest) = (bytesToWords rest).map (be32 b0 b1 b2 b3 :: ·) := by
  rw [bytesToWords]
  cases bytesToWords rest <;> rfl

/-- Whole words never fail: the check of R91 cannot fire on them. -/
theorem bytesToWords_isOk : ∀ (n : Nat) (b : List Byte), b.length = 4 * n →
    ∃ ws, bytesToWords b = .ok ws ∧ ws.length = n
  | 0, b, h => ⟨[], by simp_all, rfl⟩
  | n + 1, b0 :: b1 :: b2 :: b3 :: rest, h => by
    obtain ⟨ws, hws, hlen⟩ := bytesToWords_isOk n rest (by simp at h; omega)
    exact ⟨be32 b0 b1 b2 b3 :: ws, by rw [bytesToWords_cons, hws]; rfl, by simp [hlen]⟩
  | n + 1, [], h | n + 1, [_], h | n + 1, [_, _], h | n + 1, [_, _, _], h => by simp at h <;> omega

@[simp] theorem wordToHex_length (w : Word) : (wordToHex w).length = 8 := rfl

@[simp] theorem wordsToHex_nil : wordsToHex [] = [] := rfl

@[simp] theorem wordsToHex_cons (w : Word) (ws : List Word) :
    wordsToHex (w :: ws) = wordToHex w ++ wordsToHex ws := rfl

@[simp] theorem bigEndianBytes_length : ∀ (n : Nat) (v : BitVec (8 * n)), (bigEndianBytes n v).length = n
  | 0, _ => rfl
  | n + 1, v => by simp [bigEndianBytes, bigEndianBytes_length n]

@[simp] theorem be64bytes_length (v : BitCount) : (be64bytes v).length = 8 := bigEndianBytes_length 8 v

end Sys2Proof.Machine
end

