-- ==== Sys2Proof/Laws/State.lean ====
section
/-! SUPPORT. One lemma per field per update of `State`, so that no later proof unfolds a record update. -/

namespace Sys2Proof.Machine

/-! ## `respond` -/

@[simp] theorem respond_hash (r : Response) (s : State) : (respond r s).hash = s.hash := rfl
@[simp] theorem respond_len (r : Response) (s : State) : (respond r s).len = s.len := rfl
@[simp] theorem respond_fin (r : Response) (s : State) : (respond r s).fin = s.fin := rfl
@[simp] theorem respond_work (r : Response) (s : State) : (respond r s).work = s.work := rfl
@[simp] theorem respond_sched (r : Response) (s : State) : (respond r s).sched = s.sched := rfl
@[simp] theorem respond_blk (r : Response) (s : State) : (respond r s).blk = s.blk := rfl
@[simp] theorem respond_t (r : Response) (s : State) : (respond r s).t = s.t := rfl
@[simp] theorem respond_kblk (r : Response) (s : State) : (respond r s).kblk = s.kblk := rfl
@[simp] theorem respond_host (r : Response) (s : State) : (respond r s).host = s.host := rfl
@[simp] theorem respond_responses (r : Response) (s : State) : (respond r s).responses = s.responses ++ [r] := rfl
@[simp] theorem respond_draws (r : Response) (s : State) : (respond r s).draws = s.draws := rfl

/-! ## `reject` -/

@[simp] theorem reject_hash (e : Status) (s : State) : (reject e s).hash = s.hash := rfl
@[simp] theorem reject_len (e : Status) (s : State) : (reject e s).len = s.len := rfl
@[simp] theorem reject_fin (e : Status) (s : State) : (reject e s).fin = s.fin := rfl
@[simp] theorem reject_work (e : Status) (s : State) : (reject e s).work = s.work := rfl
@[simp] theorem reject_sched (e : Status) (s : State) : (reject e s).sched = s.sched := rfl
@[simp] theorem reject_blk (e : Status) (s : State) : (reject e s).blk = s.blk := rfl
@[simp] theorem reject_t (e : Status) (s : State) : (reject e s).t = s.t := rfl
@[simp] theorem reject_kblk (e : Status) (s : State) : (reject e s).kblk = s.kblk := rfl
@[simp] theorem reject_host (e : Status) (s : State) : (reject e s).host = s.host := rfl
@[simp] theorem reject_responses (e : Status) (s : State) :
    (reject e s).responses = s.responses ++ [plainResponse e] := rfl
@[simp] theorem reject_draws (e : Status) (s : State) : (reject e s).draws = s.draws := rfl

/-! ## `startSession` -/

@[simp] theorem startSession_hash (s : State) : (startSession s).hash = iv := rfl
@[simp] theorem startSession_len (s : State) : (startSession s).len = 0 := rfl
@[simp] theorem startSession_fin (s : State) : (startSession s).fin = false := rfl
@[simp] theorem startSession_work (s : State) : (startSession s).work = s.work := rfl
@[simp] theorem startSession_sched (s : State) : (startSession s).sched = s.sched := rfl
@[simp] theorem startSession_blk (s : State) : (startSession s).blk = s.blk := rfl
@[simp] theorem startSession_t (s : State) : (startSession s).t = s.t := rfl
@[simp] theorem startSession_kblk (s : State) : (startSession s).kblk = s.kblk := rfl
@[simp] theorem startSession_host (s : State) : (startSession s).host = s.host := rfl
@[simp] theorem startSession_responses (s : State) : (startSession s).responses = s.responses := rfl
@[simp] theorem startSession_draws (s : State) : (startSession s).draws = s.draws := rfl

/-! ## `resetEngine` -/

@[simp] theorem resetEngine_hash (s : State) : (resetEngine s).hash = iv := rfl
@[simp] theorem resetEngine_len (s : State) : (resetEngine s).len = 0 := rfl
@[simp] theorem resetEngine_fin (s : State) : (resetEngine s).fin = false := rfl
@[simp] theorem resetEngine_host (s : State) : (resetEngine s).host = s.host := rfl
@[simp] theorem resetEngine_responses (s : State) : (resetEngine s).responses = s.responses := rfl
@[simp] theorem resetEngine_draws (s : State) : (resetEngine s).draws = s.draws + 1 := rfl

/-! ## `addLength` -/

@[simp] theorem addLength_hash (p : List Byte) (s : State) : (addLength p s).hash = s.hash := rfl
@[simp] theorem addLength_len (p : List Byte) (s : State) : (addLength p s).len = s.len + bitCount p := rfl
@[simp] theorem addLength_fin (p : List Byte) (s : State) : (addLength p s).fin = s.fin := rfl
@[simp] theorem addLength_work (p : List Byte) (s : State) : (addLength p s).work = s.work := rfl
@[simp] theorem addLength_sched (p : List Byte) (s : State) : (addLength p s).sched = s.sched := rfl
@[simp] theorem addLength_blk (p : List Byte) (s : State) : (addLength p s).blk = s.blk := rfl
@[simp] theorem addLength_t (p : List Byte) (s : State) : (addLength p s).t = s.t := rfl
@[simp] theorem addLength_kblk (p : List Byte) (s : State) : (addLength p s).kblk = s.kblk := rfl
@[simp] theorem addLength_host (p : List Byte) (s : State) : (addLength p s).host = s.host := rfl
@[simp] theorem addLength_responses (p : List Byte) (s : State) : (addLength p s).responses = s.responses := rfl
@[simp] theorem addLength_draws (p : List Byte) (s : State) : (addLength p s).draws = s.draws := rfl

/-! ## `closeSession` -/

@[simp] theorem closeSession_hash (s : State) : (closeSession s).hash = s.hash := rfl
@[simp] theorem closeSession_len (s : State) : (closeSession s).len = s.len := rfl
@[simp] theorem closeSession_fin (s : State) : (closeSession s).fin = true := rfl
@[simp] theorem closeSession_work (s : State) : (closeSession s).work = s.work := rfl
@[simp] theorem closeSession_sched (s : State) : (closeSession s).sched = s.sched := rfl
@[simp] theorem closeSession_blk (s : State) : (closeSession s).blk = s.blk := rfl
@[simp] theorem closeSession_t (s : State) : (closeSession s).t = s.t := rfl
@[simp] theorem closeSession_kblk (s : State) : (closeSession s).kblk = s.kblk := rfl
@[simp] theorem closeSession_host (s : State) : (closeSession s).host = s.host := rfl
@[simp] theorem closeSession_responses (s : State) : (closeSession s).responses = s.responses := rfl
@[simp] theorem closeSession_draws (s : State) : (closeSession s).draws = s.draws := rfl

/-! ## `seed` -/

@[simp] theorem seed_hash (s : State) : (seed s).hash = s.hash := rfl
@[simp] theorem seed_len (s : State) : (seed s).len = s.len := rfl
@[simp] theorem seed_fin (s : State) : (seed s).fin = s.fin := rfl
@[simp] theorem seed_work (s : State) : (seed s).work = ⟨s.hash.h0, s.hash.h1, s.hash.h2, s.hash.h3, s.hash.h4⟩ := rfl
@[simp] theorem seed_sched (s : State) : (seed s).sched = s.sched := rfl
@[simp] theorem seed_blk (s : State) : (seed s).blk = s.blk := rfl
@[simp] theorem seed_t (s : State) : (seed s).t = s.t := rfl
@[simp] theorem seed_kblk (s : State) : (seed s).kblk = s.kblk := rfl
@[simp] theorem seed_host (s : State) : (seed s).host = s.host := rfl
@[simp] theorem seed_responses (s : State) : (seed s).responses = s.responses := rfl
@[simp] theorem seed_draws (s : State) : (seed s).draws = s.draws := rfl

/-! ## `expand` -/

@[simp] theorem expand_hash (s : State) : (expand s).hash = s.hash := rfl
@[simp] theorem expand_len (s : State) : (expand s).len = s.len := rfl
@[simp] theorem expand_fin (s : State) : (expand s).fin = s.fin := rfl
@[simp] theorem expand_work (s : State) : (expand s).work = s.work := rfl
@[simp] theorem expand_sched (s : State) : (expand s).sched = expandSchedule s.sched := rfl
@[simp] theorem expand_blk (s : State) : (expand s).blk = s.blk := rfl
@[simp] theorem expand_t (s : State) : (expand s).t = 79 := rfl
@[simp] theorem expand_kblk (s : State) : (expand s).kblk = s.kblk := rfl
@[simp] theorem expand_host (s : State) : (expand s).host = s.host := rfl
@[simp] theorem expand_responses (s : State) : (expand s).responses = s.responses := rfl
@[simp] theorem expand_draws (s : State) : (expand s).draws = s.draws := rfl

/-! ## `rounds` -/

@[simp] theorem rounds_hash (s : State) : (rounds s).hash = s.hash := rfl
@[simp] theorem rounds_len (s : State) : (rounds s).len = s.len := rfl
@[simp] theorem rounds_fin (s : State) : (rounds s).fin = s.fin := rfl
@[simp] theorem rounds_work (s : State) : (rounds s).work = runRounds s.sched s.work := rfl
@[simp] theorem rounds_sched (s : State) : (rounds s).sched = s.sched := rfl
@[simp] theorem rounds_blk (s : State) : (rounds s).blk = s.blk := rfl
@[simp] theorem rounds_t (s : State) : (rounds s).t = 79 := rfl
@[simp] theorem rounds_kblk (s : State) : (rounds s).kblk = s.kblk := rfl
@[simp] theorem rounds_host (s : State) : (rounds s).host = s.host := rfl
@[simp] theorem rounds_responses (s : State) : (rounds s).responses = s.responses := rfl
@[simp] theorem rounds_draws (s : State) : (rounds s).draws = s.draws := rfl

/-! ## `foldBack` -/

@[simp] theorem foldBack_hash (s : State) : (foldBack s).hash = addWorking s.hash s.work := rfl
@[simp] theorem foldBack_len (s : State) : (foldBack s).len = s.len := rfl
@[simp] theorem foldBack_fin (s : State) : (foldBack s).fin = s.fin := rfl
@[simp] theorem foldBack_work (s : State) : (foldBack s).work = s.work := rfl
@[simp] theorem foldBack_sched (s : State) : (foldBack s).sched = s.sched := rfl
@[simp] theorem foldBack_blk (s : State) : (foldBack s).blk = s.blk := rfl
@[simp] theorem foldBack_t (s : State) : (foldBack s).t = s.t := rfl
@[simp] theorem foldBack_kblk (s : State) : (foldBack s).kblk = s.kblk := rfl
@[simp] theorem foldBack_host (s : State) : (foldBack s).host = s.host := rfl
@[simp] theorem foldBack_responses (s : State) : (foldBack s).responses = s.responses := rfl
@[simp] theorem foldBack_draws (s : State) : (foldBack s).draws = s.draws := rfl

/-! ## `fetchBlock` -/

@[simp] theorem fetchBlock_hash (p : List Byte) (s : State) (k : Fin (p.length / 64)) :
    (fetchBlock p s k).hash = s.hash := rfl
@[simp] theorem fetchBlock_len (p : List Byte) (s : State) (k : Fin (p.length / 64)) :
    (fetchBlock p s k).len = s.len := rfl
@[simp] theorem fetchBlock_fin (p : List Byte) (s : State) (k : Fin (p.length / 64)) :
    (fetchBlock p s k).fin = s.fin := rfl
@[simp] theorem fetchBlock_work (p : List Byte) (s : State) (k : Fin (p.length / 64)) :
    (fetchBlock p s k).work = s.work := rfl
@[simp] theorem fetchBlock_sched (p : List Byte) (s : State) (k : Fin (p.length / 64)) :
    (fetchBlock p s k).sched = s.sched := rfl
@[simp] theorem fetchBlock_blk (p : List Byte) (s : State) (k : Fin (p.length / 64)) :
    (fetchBlock p s k).blk = blockAt p k k.isLt := rfl
@[simp] theorem fetchBlock_t (p : List Byte) (s : State) (k : Fin (p.length / 64)) : (fetchBlock p s k).t = s.t := rfl
@[simp] theorem fetchBlock_kblk (p : List Byte) (s : State) (k : Fin (p.length / 64)) :
    (fetchBlock p s k).kblk = k := rfl
@[simp] theorem fetchBlock_host (p : List Byte) (s : State) (k : Fin (p.length / 64)) :
    (fetchBlock p s k).host = s.host := rfl
@[simp] theorem fetchBlock_responses (p : List Byte) (s : State) (k : Fin (p.length / 64)) :
    (fetchBlock p s k).responses = s.responses := rfl
@[simp] theorem fetchBlock_draws (p : List Byte) (s : State) (k : Fin (p.length / 64)) :
    (fetchBlock p s k).draws = s.draws := rfl

/-! ## `withFetchWord` -/

@[simp] theorem withFetchWord_hash (s : State) (nbits w : Nat) : (s.withFetchWord nbits w).hash = s.hash := rfl
@[simp] theorem withFetchWord_len (s : State) (nbits w : Nat) : (s.withFetchWord nbits w).len = s.len := rfl
@[simp] theorem withFetchWord_fin (s : State) (nbits w : Nat) : (s.withFetchWord nbits w).fin = s.fin := rfl
@[simp] theorem withFetchWord_work (s : State) (nbits w : Nat) : (s.withFetchWord nbits w).work = s.work := rfl
@[simp] theorem withFetchWord_sched (s : State) (nbits w : Nat) : (s.withFetchWord nbits w).sched = s.sched := rfl
@[simp] theorem withFetchWord_blk (s : State) (nbits w : Nat) : (s.withFetchWord nbits w).blk = s.blk := rfl
@[simp] theorem withFetchWord_t (s : State) (nbits w : Nat) : (s.withFetchWord nbits w).t = s.t := rfl
@[simp] theorem withFetchWord_kblk (s : State) (nbits w : Nat) : (s.withFetchWord nbits w).kblk = s.kblk := rfl
@[simp] theorem withFetchWord_host (s : State) (nbits w : Nat) :
    (s.withFetchWord nbits w).host = .command (tableTransaction nbits w) :: s.host := rfl
@[simp] theorem withFetchWord_responses (s : State) (nbits w : Nat) :
    (s.withFetchWord nbits w).responses = s.responses := rfl
@[simp] theorem withFetchWord_draws (s : State) (nbits w : Nat) : (s.withFetchWord nbits w).draws = s.draws := rfl

end Sys2Proof.Machine
end

