-- ==== Sys2Proof/Laws/Compression.lean ====
section
/-! SUPPORT. What each step of the block procedure can do (R112 to R119), said once: it answers a state, and which fields that
state shares with the one before. -/

namespace Sys2Proof.Machine

/-- R113: the load step changes `W` only. -/
theorem loadSchedule_cases (s : State) :
    ∃ ws, bytesToWords s.blk.toList = .ok ws ∧ ws.length = 16 ∧
      loadSchedule s = .ok { s with sched := writeWords ws 0 s.sched } := by
  obtain ⟨ws, hws, hlen⟩ := bytesToWords_isOk 16 s.blk.toList (by simp)
  exact ⟨ws, hws, hlen, by simp [loadSchedule, hws]⟩

/-- R123: the block procedure always ends, in the five steps on the 16 words of `BLK`. -/
theorem compressBlock_cases (s : State) :
    ∃ ws, bytesToWords s.blk.toList = .ok ws ∧ ws.length = 16 ∧
      compressBlock s =
        .ok (foldBack (rounds (expand { seed s with sched := writeWords ws 0 s.sched }))) := by
  obtain ⟨ws, hws, hlen, h⟩ := loadSchedule_cases (seed s)
  exact ⟨ws, hws, hlen, by simp [compressBlock, h]⟩

/-- What the compression engine never writes (R110): `LEN`, `FIN`, and nothing outside the engine. -/
structure KeepsSession (s t : State) : Prop where
  len : t.len = s.len
  fin : t.fin = s.fin
  host : t.host = s.host
  responses : t.responses = s.responses
  draws : t.draws = s.draws

theorem KeepsSession.refl (s : State) : KeepsSession s s := ⟨rfl, rfl, rfl, rfl, rfl⟩

theorem KeepsSession.trans {s t u : State} (h : KeepsSession s t) (k : KeepsSession t u) : KeepsSession s u :=
  ⟨k.len.trans h.len, k.fin.trans h.fin, k.host.trans h.host, k.responses.trans h.responses,
    k.draws.trans h.draws⟩

theorem compressBlock_keeps (s : State) : ∃ t, compressBlock s = .ok t ∧ KeepsSession s t := by
  obtain ⟨ws, -, -, h⟩ := compressBlock_cases s
  exact ⟨_, h, rfl, rfl, rfl, rfl, rfl⟩

theorem ok_bind {ε α β : Type} (a : α) (f : α → Except ε β) : (Except.ok a >>= f) = f a := rfl

/-- A loop of blocks, over any way to fetch one that keeps the session. -/
theorem blocks_keep {β : Type} (fetch : State → β → State) (hf : ∀ s b, KeepsSession s (fetch s b)) :
    ∀ (l : List β) (s : State), ∃ t,
      l.foldlM (fun s b => compressBlock (fetch s b)) s = Except.ok t ∧ KeepsSession s t
  | [], s => ⟨s, rfl, .refl s⟩
  | b :: l, s => by
    obtain ⟨u, hu, ku⟩ := compressBlock_keeps (fetch s b)
    obtain ⟨t, ht, kt⟩ := blocks_keep fetch hf l u
    refine ⟨t, ?_, ((hf s b).trans ku).trans kt⟩
    rw [List.foldlM_cons, hu, ok_bind, ht]

/-- R110: `compress` cannot fail, and reads and writes neither `LEN` nor `FIN`. -/
theorem compress_keeps (p : List Byte) (s : State) : ∃ t, compress p s = .ok t ∧ KeepsSession s t :=
  blocks_keep (fetchBlock p) (fun _ _ => ⟨rfl, rfl, rfl, rfl, rfl⟩) _ s

end Sys2Proof.Machine
end

