-- ==== Sys2Proof/Laws/PerInstr.lean ====
section
/-! SUPPORT. The fields of every command's word (R73, R74, R82), one lemma per constructor of `Instr`. -/

namespace Sys2Proof.Laws.Fields

/-- The word of `i` selects its own row of the opcode map, and `lenb` is its payload length. -/
def Statement (i : Instr) : Prop :=
  i.mnemonic.selects (encodeWord i) = true ∧ lenField (encodeWord i) = BitVec.ofNat 61 i.payload.length

theorem init : Statement .init := ⟨by decide, lenField_encodeWord _⟩

theorem absorb (payload : List Byte) : Statement (.absorb payload) := by
  refine ⟨?_, lenField_encodeWord _⟩
  simp only [Mnemonic.selects, encodeWord, Instr.mnemonic, Mnemonic.mask, Mnemonic.pattern, Mnemonic.op, beq_iff_eq]
  generalize BitVec.ofNat 61 (Instr.absorb payload).payload.length = n
  rw [show (0xE000000000000000 : CommandWord) = 0b111#3 ++ 0#61 by decide,
    show (0x4000000000000000 : CommandWord) = 0b010#3 ++ 0#61 by decide, BitVec.and_append]
  simp

theorem final (payload : List Byte) : Statement (.final payload) := by
  refine ⟨?_, lenField_encodeWord _⟩
  simp only [Mnemonic.selects, encodeWord, Instr.mnemonic, Mnemonic.mask, Mnemonic.pattern, Mnemonic.op, beq_iff_eq]
  generalize BitVec.ofNat 61 (Instr.final payload).payload.length = n
  rw [show (0xE000000000000000 : CommandWord) = 0b111#3 ++ 0#61 by decide,
    show (0x6000000000000000 : CommandWord) = 0b011#3 ++ 0#61 by decide, BitVec.and_append]
  simp

theorem read : Statement .read := ⟨by decide, lenField_encodeWord _⟩

end Sys2Proof.Laws.Fields
end

