-- ==== Sys2Proof/Laws/Session.lean ====
section
/-! SUPPORT. What each command can do (R131 to R134), one lemma per way it can end. -/

namespace Sys2Proof.Machine

/-- R133: finalization cannot fail; it compresses the padded chunk and sets `FIN`. -/
theorem finalizeWith_cases (p : List Byte) (s : State) :
    ∃ t, compress (pad p (addLength p s).len) (addLength p s) = .ok t ∧
      KeepsSession (addLength p s) t ∧ finalizeWith p s = .ok (closeSession t) := by
  obtain ⟨t, ht, k⟩ := compress_keeps (pad p (addLength p s).len) (addLength p s)
  exact ⟨t, ht, k, by rw [finalizeWith, ht]⟩

theorem execAbsorb_closed (p : List Byte) (s : State) (h : s.fin = true) :
    execAbsorb p s = .next (reject .sessionClosed s) := by
  rw [execAbsorb, if_pos h]

theorem execAbsorb_unaligned (p : List Byte) (s : State) (h : s.fin = false) (hp : p.length % 64 ≠ 0) :
    execAbsorb p s = .next (reject .unalignedChunk s) := by
  rw [execAbsorb, if_neg (by simp [h]), if_pos hp]

theorem execAbsorb_accepted (p : List Byte) (s : State) (h : s.fin = false) (hp : p.length % 64 = 0) :
    ∃ t, compress p (addLength p s) = .ok t ∧ KeepsSession (addLength p s) t ∧
      execAbsorb p s = .next (respond (plainResponse .ok) t) := by
  obtain ⟨t, ht, k⟩ := compress_keeps p (addLength p s)
  exact ⟨t, ht, k, by rw [execAbsorb, if_neg (by simp [h]), if_neg (by simp [hp]), ht, conclude]⟩

theorem execFinal_closed (p : List Byte) (s : State) (h : s.fin = true) :
    execFinal p s = .next (reject .sessionClosed s) := by
  rw [execFinal, if_pos h]

theorem execFinal_accepted (p : List Byte) (s : State) (h : s.fin = false) :
    ∃ t, finalizeWith p s = .ok t ∧ execFinal p s = .next (respond (plainResponse .ok) t) := by
  obtain ⟨t, -, -, ht⟩ := finalizeWith_cases p s
  exact ⟨_, ht, by rw [execFinal, if_neg (by simp [h]), ht, conclude]⟩

theorem execRead_closed (s : State) (h : s.fin = true) :
    execRead s = .next (respond (digestResponse s.hash) s) := by
  rw [execRead, if_pos h, conclude]

theorem execRead_open (s : State) (h : s.fin = false) :
    ∃ t, finalizeWith [] s = .ok t ∧ execRead s = .next (respond (digestResponse t.hash) t) := by
  obtain ⟨t, -, -, ht⟩ := finalizeWith_cases [] s
  exact ⟨_, ht, by rw [execRead, if_neg (by simp [h]), ht, conclude]⟩

end Sys2Proof.Machine
end

