-- ==== Sys2Proof/Laws/Step.lean ====
section
/-! SUPPORT. Runs of `Host.Core.run` one step at a time, and what a step does with a reset. -/

namespace Sys2Proof.Machine

theorem hostRun_succ {M : Host.Core} {n : Nat} {s t : M.State} (h : M.step s = .next t) :
    M.run (n + 1) s = M.run n t := by
  rw [Host.Core.run, h]

/-- A run that starts with a step that goes on. -/
theorem run_succ {s t : State} (n : Nat) (h : step s = .next t) :
    Host.Core.run Sys2Proof.core (n + 1) s = Host.Core.run Sys2Proof.core n t :=
  hostRun_succ (M := Sys2Proof.core) h

theorem run_zero (s : State) : Host.Core.run Sys2Proof.core 0 s = .next s := rfl

/-- R170: a reset, between commands or during one, is `resetEngine` on the rest of the host's moves. -/
theorem step_resets (s : State) (m : HostMove) (rest : List HostMove) (h : s.host = m :: rest)
    (hm : m = .reset ∨ ∃ tx, m = .resetDuring tx) : step s = .next (resetEngine { s with host := rest }) := by
  rcases hm with rfl | ⟨tx, rfl⟩ <;> rw [step, h]

end Sys2Proof.Machine
end

