-- ==== Sys2Proof/Tests/Slice0.lean ====
section
/-! SUPPORT. Tests on values of 95_test_vectors.md and of the rules' own examples, then, for every obligation with hypotheses, a
witness that meets them. -/

namespace Sys2Proof.Tests

open Sys2Proof Sys2Proof.Machine

/-! ## Helpers -/

/-- A transaction for any word, its payload `lenb` zero bytes. -/
def zeroTransaction (w : CommandWord) : Transaction := ⟨w, List.replicate (w.extractLsb' 0 61).toNat 0, List.length_replicate⟩

/-- `n` times the byte `0x61`, the letter `a`. -/
def letters (n : Nat) : List Byte := List.replicate n 0x61

def abc : List Byte := [0x61, 0x62, 0x63]

/-- The registers and the last response's status after one step. -/
def seen (s : State) : Option (Hash × BitCount × Bool × Option Status) :=
  match step s with
  | .next t => some (t.hash, t.len, t.fin, t.responses.getLast?.map (·.status))
  | _ => none

/-- `s` with one transaction presented. -/
def given (s : State) (tx : Transaction) : State := { s with host := [.command tx] }

/-- After `ABSORB rep(0x61, 64)` from reset (95 section 4, P2). -/
def absorbed : State :=
  { State.reset with hash := ⟨0xDA4968EB, 0x2E377C1F, 0x884E8F52, 0x83524BEB, 0xE74EBDBD⟩, len := 512 }

/-- After two of them. -/
def absorbedTwice : State :=
  { State.reset with hash := ⟨0x0BA02949, 0xDE712838, 0x689E76E5, 0x885BF881, 0x17BA3444⟩, len := 1024 }

/-- After `FINAL "abc"` from reset (95 section 2). -/
def finished : State :=
  { State.reset with hash := ⟨0xA9993E36, 0x4706816A, 0xBA3E2571, 0x7850C26C, 0x9CD0D89D⟩, len := 24, fin := true }

/-- Other scratch than that of reset. -/
def withScratch (s : State) : State := { s with work := ⟨1, 2, 3, 4, 5⟩, sched := Vector.replicate 80 6, t := 7, kblk := 8 }

def initTx : Transaction := ⟨0x2000000000000000, [], by decide⟩
def absorb64Tx : Transaction := ⟨0x4000000000000040, letters 64, by decide⟩
def absorb63Tx : Transaction := ⟨0x400000000000003F, letters 63, by decide⟩
def finalTx : Transaction := ⟨0x6000000000000003, abc, by decide⟩
def readTx : Transaction := ⟨0x8000000000000000, [], by decide⟩
def reservedTx : Transaction := ⟨0x2000000000000001, [0x61], by decide⟩

/-! ## Well-formedness: the one check, refused at its first bad value, accepted at its last good one -/

theorem test_wellFormed_refuses_long (b : Byte) : ¬(Instr.absorb (List.replicate (2 ^ 61) b)).WellFormed := by
  rw [Instr.WellFormed, Instr.payload, List.length_replicate]
  exact Nat.lt_irrefl _

theorem test_wellFormed_accepts_longest (b : Byte) : (Instr.final (List.replicate (2 ^ 61 - 1) b)).WellFormed := by
  rw [Instr.WellFormed, Instr.payload, List.length_replicate]
  exact Nat.sub_one_lt (Nat.two_pow_pos 61).ne'

/-! ## Decoding: words written out from R72 to R75 and 95 section 3.5 -/

theorem test_decode_init :
    decode ⟨0b0010000000000000000000000000000000000000000000000000000000000000,
      [], by decide⟩ = .ok .init := by decide

theorem test_decode_absorb :
    decode ⟨0b0100000000000000000000000000000000000000000000000000000001000000,
      letters 64, by decide⟩ = .ok (.absorb (letters 64)) := by decide

theorem test_decode_final :
    decode ⟨0b0110000000000000000000000000000000000000000000000000000000000011,
      abc, by decide⟩ = .ok (.final abc) := by decide

theorem test_decode_read :
    decode ⟨0b1000000000000000000000000000000000000000000000000000000000000000,
      [], by decide⟩ = .ok .read := by decide

theorem test_decode_op_111 :
    decode ⟨0b1110000000000000000000000000000000000000000000000000000000000000,
      [], by decide⟩ = .error (.reservedOp 0b111) := by decide

theorem test_decode_init_with_length :
    decode ⟨0b0010000000000000000000000000000000000000000000000000000000000001,
      [0x61], by decide⟩ = .error (.reservedLength 0b001 1) := by decide

/-! ## One step of each command (95 sections 1.2, 2 and 4; R138) -/

theorem test_init_discards_the_session :
    seen (given finished initTx) = some (iv, 0, false, some .ok) := by decide +kernel

theorem test_absorb_one_block :
    seen (given State.reset absorb64Tx) = some (absorbed.hash, 512, false, some .ok) := by decide +kernel

theorem test_absorb_unaligned :
    seen (given State.reset absorb63Tx) = some (iv, 0, false, some .unalignedChunk) := by decide +kernel

theorem test_final_abc : seen (given State.reset finalTx) = some (finished.hash, 24, true, some .ok) := by decide +kernel

/-- R138: the whole message's length, not the last chunk's. -/
theorem test_final_after_128_bytes : seen (given absorbedTwice finalTx) =
    some (⟨0x87CEBE89, 0x0B9F97CE, 0xAD879377, 0xD137A895, 0x5B3E3D16⟩, 1048, true, some .ok) := by decide +kernel

/-- 95 section 4, P4: the digest of the empty message. -/
theorem test_read_at_reset : seen (given State.reset readTx) =
    some (⟨0xDA39A3EE, 0x5E6B4B0D, 0x3255BFEF, 0x95601890, 0xAFD80709⟩, 0, true, some .ok) := by decide +kernel

/-- 95 section 2: both views of the digest. -/
theorem test_read_response : digestResponse finished.hash = ⟨.ok, 0xA9993E364706816ABA3E25717850C26C9CD0D89D,
    [0x61, 0x39, 0x39, 0x39, 0x33, 0x65, 0x33, 0x36, 0x34, 0x37, 0x30, 0x36, 0x38, 0x31, 0x36, 0x61, 0x62, 0x61, 0x33, 0x65,
      0x32, 0x35, 0x37, 0x31, 0x37, 0x38, 0x35, 0x30, 0x63, 0x32, 0x36, 0x63, 0x39, 0x63, 0x64, 0x30, 0x64, 0x38, 0x39,
      0x64]⟩ := by decide +kernel

/-- R155: closed comes before unaligned. -/
theorem test_closed_before_unaligned :
    seen (given finished absorb63Tx) = some (finished.hash, 24, true, some .sessionClosed) := by decide +kernel

theorem test_reserved_word : seen (given absorbed reservedTx) = some (absorbed.hash, 512, false, some .illegalCommand) := by
  decide +kernel

/-- R170. -/
theorem test_reset_during_command : seen { finished with host := [.resetDuring finalTx] } = some (iv, 0, false, none) := by
  decide +kernel

/-! ## The datapath (95 sections 3.1 to 3.3, R115, R117, R118) -/

theorem test_rotl32 : rotl32 0x80000001 1 = 0x00000003 ∧ rotl32 0x12345678 5 = 0x468ACF02 ∧
    rotl32 0xEFCDAB89 30 = 0x7BF36AE2 := by decide

theorem test_roundFunction_ranges :
    [0, 19, 20, 39, 40, 59, 60, 79].map (fun t => roundFunction t 0xF0F0F0F0 0xCCCCCCCC 0xAAAAAAAA) =
      [0xCACACACA, 0xCACACACA, 0x96969696, 0x96969696, 0xE8E8E8E8, 0xE8E8E8E8, 0x96969696, 0x96969696] := by decide

theorem test_roundConstant_ranges : [19, 20, 39, 40, 59, 60].map roundConstant =
    [0x5A827999, 0x6ED9EBA1, 0x6ED9EBA1, 0x8F1BBCDC, 0x8F1BBCDC, 0xCA62C1D6] := by decide

theorem test_round_0 : roundUpdate 0 0x61626380 ⟨0x67452301, 0xEFCDAB89, 0x98BADCFE, 0x10325476, 0xC3D2E1F0⟩ =
    ⟨0x0116FC33, 0x67452301, 0x7BF36AE2, 0x98BADCFE, 0x10325476⟩ := by decide

theorem test_round_60 : roundSum 60 0x7BA06619 ⟨0x3F52DE5A, 0x09D785FD, 0x3498BFD4, 0xF211824F, 0xD79915AB⟩ = 0xD756C147 := by
  decide

/-- R123: the all-zero block from IV. -/
theorem test_zero_block : (compressBlock State.reset).toOption.map (·.hash) =
    some ⟨0x92B404E5, 0x56588CED, 0x6C1ACD4E, 0xBF053F68, 0x09F73A93⟩ := by decide +kernel

/-- The zero block from a zero `H`. -/
theorem test_zero_block_zero_hash : blockFunction ⟨0, 0, 0, 0, 0⟩ (Vector.replicate 64 0) =
    ⟨0x9E1547ED, 0x57EC91C2, 0x30FA8BC8, 0xC7785A54, 0xA7EFA5E3⟩ := by decide +kernel

/-- 95 section 2: the schedule of "abc". -/
theorem test_schedule : ((loadSchedule (fetchBlock (pad abc 24) State.reset ⟨0, by decide⟩)).toOption.map fun s =>
    [16, 19, 41, 79].map ((expand s).sched[·]?.getD 0)) = some [0xC2C4C700, 0x85898E01, 0x00000F00, 0x822E0879] := by
  decide +kernel

theorem test_pad_55 : pad (letters 55) 440 = letters 55 ++ [0x80, 0, 0, 0, 0, 0, 0, 0x01, 0xB8] := by decide

theorem test_pad_56 : pad (letters 56) 448 =
    letters 56 ++ 0x80 :: List.replicate 63 0 ++ [0, 0, 0, 0, 0, 0, 0x01, 0xC0] := by decide

theorem test_pad_total : (pad abc 1048).drop 56 = [0, 0, 0, 0, 0, 0, 0x04, 0x18] := by decide

theorem test_bytesToWords : bytesToWords [0x01, 0x02, 0x03, 0x04, 0xFE, 0xDC, 0xBA, 0x98] = .ok [0x01020304, 0xFEDCBA98] := by
  decide

theorem test_bytesToWords_malformed : bytesToWords abc = .error .malformedWordConversion := by decide

theorem test_wordsToHex : wordsToHex [0x0000000A] = [0x30, 0x30, 0x30, 0x30, 0x30, 0x30, 0x30, 0x61] := by decide

/-- R80's `rep` form and comment, with blanks wherever log 14 reads them. -/
theorem test_assemble_blanks : assembleLine "  ABSORB  rep( 0x61 , 2 ) ++ hex:62 ; three bytes".toList =
    some [.absorb [0x61, 0x61, 0x62]] := by decide +kernel

/-- A `;` between quotes is a character (log 14; ASCII 3B). -/
theorem test_assemble_string : assembleLine "FINAL \"a;b\" ; c".toList = some [.final [0x61, 0x3B, 0x62]] := by
  decide +kernel

/-! ## Witnesses: for each obligation with hypotheses, states and operands that meet them, each clause at a boundary -/

theorem witness_SpecWordsDecode : ∀ w ∈ ([0x2000000000000000, 0x400000000000003F, 0x6000000000000003, 0x7FFFFFFFFFFFFFFF,
    0x8000000000000000, 0, 0x8000000000000014] : List CommandWord), ∃ tx : Transaction, tx.word = w :=
  fun w _ => ⟨zeroTransaction w, rfl⟩

/-- The hypotheses on `op` and `lenb`, one pair a clause: INIT, ABSORB of the shortest and longest, FINAL, READ, each reserved
`op`, and INIT and READ with the shortest and longest wrong length. -/
theorem witness_fields : ∀ f ∈ ([(0b001, 0), (0b010, 0), (0b010, 2 ^ 61 - 1), (0b011, 0), (0b011, 2 ^ 61 - 1), (0b100, 0),
    (0b000, 0), (0b101, 5), (0b110, 0), (0b111, 2 ^ 61 - 1), (0b001, 1), (0b001, 2 ^ 61 - 1), (0b100, 1), (0b100, 2 ^ 61 - 1)] :
      List (BitVec 3 × BitVec 61)),
    ∃ tx : Transaction, tx.word.extractLsb' 61 3 = f.1 ∧ tx.word.extractLsb' 0 61 = f.2 :=
  fun f _ => ⟨zeroTransaction (f.1 ++ f.2), BitVec.extractLsb'_append_eq_left, BitVec.extractLsb'_append_eq_right⟩

theorem witness_DecodeAndEncodeAreInverse :
    (Instr.absorb []).WellFormed ∧ (Instr.final (List.replicate (2 ^ 61 - 1) 0)).WellFormed ∧
    decode finalTx = .ok (.final abc) ∧ decode reservedTx = .error (.reservedLength 0b001 1) :=
  ⟨by decide, test_wellFormed_accepts_longest 0, by decide, by decide⟩

theorem witness_OpcodeMapSelectsTheCommand : Mnemonic.INIT.selects 0x2000000000000000 = true ∧
    Mnemonic.ABSORB.selects 0x5FFFFFFFFFFFFFFF = true ∧ Mnemonic.FINAL.selects 0x6000000000000000 = true ∧
    Mnemonic.READ.selects 0x8000000000000000 = true ∧
    ∀ m : Mnemonic, m.selects reservedTx.word = false := ⟨by decide, by decide, by decide, by decide, by intro m; cases m <;> decide⟩

theorem witness_ReservedWordsAreRejected : (given State.reset reservedTx).host = .command reservedTx :: [] ∧
    (reservedTx.word.extractLsb' 61 3 ∈ [0b001, 0b100] ∧ reservedTx.word.extractLsb' 0 61 ≠ 0) ∧
    readTx.word.extractLsb' 61 3 = 0b100 ∧ readTx.word.extractLsb' 0 61 = 0 := by decide

theorem witness_StepRunsTheDecodedCommand :
    (given State.reset finalTx).host = .command finalTx :: [] ∧ decode finalTx = .ok (.final abc) := by decide

theorem witness_EngineWaitsWhenNothingIsPresented : State.reset.host = [] := rfl

theorem witness_PlacedWordRunsNext : decodeTableWord 64 0x2000000000000000 = some .init ∧
    decodeTableWord 64 0x4000000000000000 = some (.absorb []) ∧
    decodeTableWord 64 0x6000000000000003 = some (.final [0, 0, 0]) ∧
    decodeTableWord 64 0x8000000000000000 = some .read := by decide

theorem witness_ResetAbandonsTheSession :
    { finished with host := [.reset] }.host = .reset :: [] ∧
    { finished with host := [.resetDuring finalTx] }.host = .resetDuring finalTx :: [] := ⟨rfl, rfl⟩

/-- Amounts 1 and 31 and a bit, of `RotationMovesEveryBit`. -/
theorem witness_RotationMovesEveryBit : (1 ≤ 1 ∧ 1 ≤ 31) ∧ (1 ≤ 31 ∧ 31 ≤ 31) ∧ 31 < 32 := by decide

/-- Each access at the last place it fits, and an appended byte. -/
theorem witness_MessageBufferIsBigEndian : 7 + 1 ≤ (letters 8).length ∧ 4 + 4 ≤ (letters 8).length ∧
    0 + 8 ≤ (letters 8).length ∧ 7 < 8 := by decide

/-- The last word of the last block of two. -/
theorem witness_BlockWordsComeFromTheBuffer : ∃ k : Fin ((letters 128).length / 64), k.val = 1 ∧ 15 < 16 :=
  ⟨⟨1, by decide +kernel⟩, rfl, by decide +kernel⟩

theorem witness_BytesToWordsGroupsByFour : (letters 0).length % 4 = 0 ∧ (letters 8).length % 4 = 0 ∧
    4 * 1 + 3 < (letters 8).length ∧ (letters 1).length % 4 ≠ 0 ∧ (letters 3).length % 4 ≠ 0 := by decide

theorem witness_WordsToHexPrintsEightDigits : 0 < [(0xABCDEF01 : Word)].length ∧ 7 < 8 ∧
    (9 : BitVec 4).toNat ≤ 9 ∧ 10 ≤ (10 : BitVec 4).toNat ∧ 10 ≤ (15 : BitVec 4).toNat := by decide

theorem witness_HexOfWordsIsHexOfBytes : (letters 0).length % 4 = 0 ∧ (letters 64).length % 4 = 0 := by decide

theorem witness_PaddingClosedForm : (letters 55).length % 64 = 55 ∧ (letters 56).length % 64 = 56 := by decide

theorem witness_PaddingProperties : abc.length < 4 ∧ 4 < (pad abc 24).length - 8 ∧ 55 < (pad abc 24).length - 8 ∧
    abc.length < 2 ^ 61 := by decide

/-- The last of the two blocks of a padded chunk of 56 bytes, and the only one of none. -/
theorem witness_LengthSuffixIsWords14And15 :
    1 + 1 = (pad (letters 56) 448).length / 64 ∧ 0 + 1 = (pad [] 0).length / 64 := by decide +kernel

theorem witness_PaddingLeavesWholeBlocksAlone : (letters 0).length % 64 = 0 ∧ (letters 128).length % 64 = 0 := by decide +kernel

/-- The first and last index of each range of the schedule (R113, R114). -/
theorem witness_ScheduleRanges : 0 < 16 ∧ 15 < 16 ∧ (16 ≤ 16 ∧ 16 < 80) ∧ (16 ≤ 79 ∧ 79 < 80) := by decide

/-- The first and last `t` of each range of R115 and R116, each in its own range only, and a bit. -/
theorem witness_RoundRanges : (0 : Fin 80).val ≤ 19 ∧ (19 : Fin 80).val ≤ 19 ∧
    (20 ≤ (20 : Fin 80).val ∧ (20 : Fin 80).val ≤ 39) ∧ (20 ≤ (39 : Fin 80).val ∧ (39 : Fin 80).val ≤ 39) ∧
    (40 ≤ (40 : Fin 80).val ∧ (40 : Fin 80).val ≤ 59) ∧ (40 ≤ (59 : Fin 80).val ∧ (59 : Fin 80).val ≤ 59) ∧
    60 ≤ (60 : Fin 80).val ∧ 60 ≤ (79 : Fin 80).val ∧ 31 < 32 := by decide

theorem witness_BlockDependsOnHashAndBytesAlone : (withScratch State.reset).hash = State.reset.hash ∧
    (withScratch State.reset).blk = State.reset.blk ∧ withScratch State.reset ≠ State.reset := by decide

theorem witness_CompressChainsBlocksInOrder : (letters 0).length % 64 = 0 ∧ (letters 64).length % 64 = 0 := by decide

/-- Open and closed; aligned at 0 and 64, unaligned at 63 and 65. -/
theorem witness_AbsorbFoldsWholeBlocks : absorbed.fin = false ∧ finished.fin = true ∧ (letters 0).length % 64 = 0 ∧
    (letters 64).length % 64 = 0 ∧ (letters 63).length % 64 ≠ 0 ∧ (letters 65).length % 64 ≠ 0 := by decide

theorem witness_UnalignedChunkIsRejectedWhole : absorbed.fin = false ∧ (letters 63).length % 64 ≠ 0 := by decide

theorem witness_FinalPadsAndFinalizes : absorbed.fin = false ∧ finished.fin = true := by decide

theorem witness_ClosedSessionRejectsIngestion : finished.fin = true ∧
    (Instr.absorb (letters 63) = .absorb (letters 63) ∨ Instr.absorb (letters 63) = .final (letters 63)) ∧
    (Instr.final [] = .absorb [] ∨ Instr.final [] = .final []) := by decide

theorem witness_ReadReturnsTheDigest : finished.fin = true ∧ absorbed.fin = false := by decide

theorem witness_ErrorsComeInTheFixedOrder : decode reservedTx = .error (.reservedLength 0b001 1) ∧
    (decode absorb63Tx = .ok (.absorb (letters 63)) ∧ finished.fin = true ∧ State.reset.fin = false ∧
      (letters 63).length % 64 ≠ 0) ∧
    (decode absorb64Tx = .ok (.absorb (letters 64)) ∧ (letters 64).length % 64 = 0) ∧
    decode finalTx = .ok (.final abc) ∧ decode initTx = .ok .init ∧ decode readTx = .ok .read := by decide

theorem witness_ErrorsLeaveEveryRegister : ∃ t, execTransaction absorb63Tx State.reset = .next t ∧
    t.responses = State.reset.responses ++ [⟨.unalignedChunk, 0, []⟩] ∧
    (⟨.unalignedChunk, 0, []⟩ : Response).status ≠ .ok :=
  ⟨reject .unalignedChunk State.reset, execAbsorb_unaligned (letters 63) State.reset rfl (by decide), rfl, by decide⟩

/-- Two states that differ in everything but `FIN`, open and closed, and a rejected transaction. -/
theorem witness_EarlierResponsesAreForgotten : (withScratch absorbed).fin = State.reset.fin ∧
    finished.fin = (withScratch finished).fin ∧ (withScratch absorbed) ≠ State.reset ∧
    ∃ t, execTransaction absorb63Tx State.reset = .next t ∧
      t.responses = State.reset.responses ++ [⟨.unalignedChunk, 0, []⟩] ∧
      (⟨.unalignedChunk, 0, []⟩ : Response).status ≠ .ok :=
  ⟨by decide, by decide, by decide, witness_ErrorsLeaveEveryRegister⟩

theorem witness_OnlyReadReturnsADigest : decode readTx = .ok .read ∧ decode finalTx ≠ .ok .read := by decide

theorem witness_FinalizationIsPermanent : (finished.fin = true ∧ Instr.read ≠ .init) ∧
    (State.reset.fin = false ∧ ∃ t, exec .read State.reset = .next t ∧ t.fin = true) ∧
    ({ finished with host := [.reset] }.host = .reset :: [] ∧
      ∃ t, step { finished with host := [.reset] } = .next t ∧ t.fin = false) ∧
    { finished with host := [.resetDuring finalTx] }.host = .resetDuring finalTx :: [] := by
  refine ⟨by decide, ⟨rfl, ?_⟩, ⟨rfl, _, rfl, rfl⟩, rfl⟩
  obtain ⟨t, -, -, h⟩ := finalizeWith_cases [] State.reset
  exact ⟨_, by rw [exec, execRead, if_neg (by decide), h, conclude], rfl⟩

theorem witness_SessionTransitionTable : State.reset.phase = .fresh ∧ absorbed.phase = .absorbing ∧
    finished.phase = .finalized ∧ absorbed.phase ≠ .finalized ∧ (letters 64).length % 64 = 0 ∧ letters 64 ≠ [] ∧
    absorbed.len.toNat + 8 * (letters 64).length < 2 ^ 64 ∧ (letters 63).length % 64 ≠ 0 ∧
    decode reservedTx = .error (.reservedLength 0b001 1) := by decide

/-- The empty message, one block absorbed, and the finished "abc": the hypothesis of the refinements, open and closed. -/
theorem witness_Represents : Represents ⟨[], false⟩ State.reset ∧ Represents ⟨letters 64, false⟩ absorbed ∧
    Represents ⟨abc, true⟩ finished := by
  unfold Represents
  decide +kernel

theorem witness_OpenLengthStaysAligned : OpenLengthAligned absorbed ∧ absorbed.fin = false ∧ OpenLengthAligned finished := by
  decide

theorem witness_ScratchIsNeverSeen : (withScratch absorbed).visible = absorbed.visible ∧ withScratch absorbed ≠ absorbed := by
  decide

theorem witness_StreamingEqualsHashingTheWhole : (∀ c ∈ [letters 64, letters 0], c.length % 64 = 0) ∧
    (letters 64).length % 64 = 0 ∧ abc.length % 64 ≠ 0 := by decide

end Sys2Proof.Tests
end

section
/-! SUPPORT and PROOFS of the scope family: the rotation of R9 and the step of R6 and R71. -/

namespace Sys2Proof.Machine

/-! ## The rotation (R9) -/

/-- R9: on the unbounded integer; only the left shift can pass `2^32`, the right shift stays below it. -/
theorem rotl32_toNat (x : Word) (n : Nat) :
    (rotl32 x n).toNat = ((x.toNat <<< n) ||| (x.toNat >>> (32 - n))) % 2 ^ 32 := by
  have hright : x.toNat >>> (32 - n) < 2 ^ 32 := (x >>> (32 - n)).isLt
  rw [Nat.or_mod_two_pow, Nat.mod_eq_of_lt hright, rotl32, BitVec.toNat_or, BitVec.toNat_shiftLeft,
    BitVec.toNat_ushiftRight]

/-- The bits below `n` come from the top of the word, through the right shift. -/
theorem rotl32_getLsbD_of_lt (x : Word) {n i : Nat} (hn : n ≤ 31) (hi : i < n) :
    (rotl32 x n).getLsbD i = x.getLsbD (i + 32 - n) := by
  have hsource : 32 - n + i = i + 32 - n := by omega
  simp [rotl32, hi, hsource]

/-- The bits from `n` on come from `n` places below, through the left shift. -/
theorem rotl32_getLsbD_of_le (x : Word) {n i : Nat} (hi : i < 32) (hni : n ≤ i) :
    (rotl32 x n).getLsbD i = x.getLsbD (i - n) := by
  have habove : x.getLsbD (32 - n + i) = false := BitVec.getLsbD_of_ge x _ (by omega)
  rw [rotl32, BitVec.getLsbD_or, BitVec.getLsbD_shiftLeft, BitVec.getLsbD_ushiftRight, habove]
  simp only [hi, Nat.not_lt.mpr hni, decide_true, decide_false, Bool.not_false, Bool.true_and, Bool.or_false]

/-- R9: bit `i` of the result is bit `(i - n) mod 32` of the operand. -/
theorem rotl32_getLsbD (x : Word) {n i : Nat} (hn : n ≤ 31) (hi : i < 32) :
    (rotl32 x n).getLsbD i = x.getLsbD ((i + 32 - n) % 32) := by
  rcases Nat.lt_or_ge i n with hlt | hge
  · rw [rotl32_getLsbD_of_lt x hn hlt, Nat.mod_eq_of_lt (by omega)]
  · rw [rotl32_getLsbD_of_le x hi hge, show (i + 32 - n) % 32 = i - n by omega]

/-- Settles O11: `rotl32_toNat` and `rotl32_getLsbD`; the three rotations are `rotl32` by definition. -/
theorem rotationMovesEveryBit : Obligations.RotationMovesEveryBit :=
  ⟨fun x n _ hn => ⟨rotl32_toNat x n, fun _ hi => rotl32_getLsbD x hn hi⟩, fun _ => ⟨rfl, rfl, rfl⟩⟩

/-! ## The step (R6, R71) -/

/-- R71: a step takes the host's next transaction off the list, and nothing else, before it runs it. -/
theorem step_command {s : State} {tx : Transaction} {rest : List HostMove} (h : s.host = .command tx :: rest) :
    step s = execTransaction tx { s with host := rest } := by
  rw [step, h]

theorem execTransaction_of_decode_ok {tx : Transaction} {i : Instr} (h : decode tx = .ok i) (s : State) :
    execTransaction tx s = exec i s := by
  rw [execTransaction, h]

/-- Settles O6: the step takes the transaction off the list, and a transaction that decodes runs as its command. -/
theorem stepRunsTheDecodedCommand : Obligations.StepRunsTheDecodedCommand := by
  intro s tx rest i hhost hdecode
  rw [step_command hhost, execTransaction_of_decode_ok hdecode]

end Sys2Proof.Machine
end

section
/-! SUPPORT and PROOFS of the state family: the registers after reset (R34), how a command and a step can end, `FIN` (R28),
`LEN` (R26, R27), and scratch (R25, R33). -/

namespace Sys2Proof.Machine

/-! ## The registers after reset (R34, R131) -/

/-- Settles O9: the fields of `State.reset` are the values of R34, and IV with `LEN = 0` is phase Fresh (R29). -/
theorem resetValuesOfTheRegisters : Obligations.ResetValuesOfTheRegisters :=
  ⟨rfl, rfl, rfl, by decide⟩

/-- Settles O49: `LEN` is 0 after reset. -/
theorem openLengthAlignedAtReset : Obligations.OpenLengthAlignedAtReset := fun _ => rfl

theorem chain_nil (h : Hash) : chain h [] = h := rfl

/-- The registers of a new session, wherever they come from, hold the empty open session. -/
theorem represents_empty {s : State} (hhash : s.hash = iv) (hlen : s.len = 0) (hfin : s.fin = false) :
    Represents ⟨[], false⟩ s :=
  ⟨hfin, hlen, nofun, fun _ => ⟨hhash.trans (chain_nil iv).symm, rfl⟩⟩

/-- Settles O55: reset and `INIT` leave the registers of a new session. -/
theorem resetHoldsTheEmptyMessage : Obligations.ResetHoldsTheEmptyMessage :=
  ⟨represents_empty rfl rfl rfl, fun _ => ⟨_, rfl, represents_empty rfl rfl rfl⟩⟩

/-! ## How a command and a step can end -/

/-- The ways a command can end in `s` (R131 to R134, R155), each with the state it leaves. -/
inductive CommandEnds (s : State) : Instr → State → Prop where
  | init : CommandEnds s .init (respond (plainResponse .ok) (startSession s))
  | absorbClosed (p : List Byte) (hfin : s.fin = true) : CommandEnds s (.absorb p) (reject .sessionClosed s)
  | absorbUnaligned (p : List Byte) (hfin : s.fin = false) (hp : p.length % 64 ≠ 0) :
      CommandEnds s (.absorb p) (reject .unalignedChunk s)
  | absorbAccepted (p : List Byte) (t : State) (hfin : s.fin = false) (hp : p.length % 64 = 0)
      (hcompress : compress p (addLength p s) = .ok t) (hkeeps : KeepsSession (addLength p s) t) :
      CommandEnds s (.absorb p) (respond (plainResponse .ok) t)
  | finalClosed (p : List Byte) (hfin : s.fin = true) : CommandEnds s (.final p) (reject .sessionClosed s)
  | finalAccepted (p : List Byte) (t : State) (hfin : s.fin = false)
      (hcompress : compress (pad p (addLength p s).len) (addLength p s) = .ok t)
      (hkeeps : KeepsSession (addLength p s) t) :
      CommandEnds s (.final p) (respond (plainResponse .ok) (closeSession t))
  | readClosed (hfin : s.fin = true) : CommandEnds s .read (respond (digestResponse s.hash) s)
  | readOpen (t : State) (hfin : s.fin = false)
      (hcompress : compress (pad [] (addLength [] s).len) (addLength [] s) = .ok t)
      (hkeeps : KeepsSession (addLength [] s) t) :
      CommandEnds s .read (respond (digestResponse t.hash) (closeSession t))

/-- R130: every command ends in every state, in one of these ways. -/
theorem exec_ends (i : Instr) (s : State) : ∃ t, exec i s = .next t ∧ CommandEnds s i t := by
  cases i with
  | init => exact ⟨_, rfl, .init⟩
  | absorb p =>
    cases hfin : s.fin with
    | true => exact ⟨_, execAbsorb_closed p s hfin, .absorbClosed p hfin⟩
    | false =>
      by_cases hp : p.length % 64 = 0
      · obtain ⟨t, ht, hkeeps, hexec⟩ := execAbsorb_accepted p s hfin hp
        exact ⟨_, hexec, .absorbAccepted p t hfin hp ht hkeeps⟩
      · exact ⟨_, execAbsorb_unaligned p s hfin hp, .absorbUnaligned p hfin hp⟩
  | final p =>
    cases hfin : s.fin with
    | true => exact ⟨_, execFinal_closed p s hfin, .finalClosed p hfin⟩
    | false =>
      obtain ⟨t, ht, hkeeps, hfinalize⟩ := finalizeWith_cases p s
      refine ⟨_, ?_, .finalAccepted p t hfin ht hkeeps⟩
      rw [exec, execFinal, if_neg (by simp [hfin]), hfinalize, conclude]
  | read =>
    cases hfin : s.fin with
    | true => exact ⟨_, execRead_closed s hfin, .readClosed hfin⟩
    | false =>
      obtain ⟨t, ht, hkeeps, hfinalize⟩ := finalizeWith_cases [] s
      refine ⟨_, ?_, .readOpen t hfin ht hkeeps⟩
      rw [exec, execRead, if_neg (by simp [hfin]), hfinalize, conclude, closeSession_hash]

/-- The ways a step can end in `s` (R71, R77, R170, R172; log 3). -/
inductive StepEnds (s : State) : State → Prop where
  | waits (hhost : s.host = []) : StepEnds s s
  | command (tx : Transaction) (rest : List HostMove) (i : Instr) (t : State) (hhost : s.host = .command tx :: rest)
      (hdecode : decode tx = .ok i) (hends : CommandEnds { s with host := rest } i t) : StepEnds s t
  | illegal (tx : Transaction) (rest : List HostMove) (e : DecodeError) (hhost : s.host = .command tx :: rest)
      (hdecode : decode tx = .error e) : StepEnds s (reject .illegalCommand { s with host := rest })
  | resets (m : HostMove) (rest : List HostMove) (hhost : s.host = m :: rest)
      (hm : m = .reset ∨ ∃ tx, m = .resetDuring tx) : StepEnds s (resetEngine { s with host := rest })

theorem execTransaction_of_decode_error {tx : Transaction} {e : DecodeError} (h : decode tx = .error e) (s : State) :
    execTransaction tx s = .next (reject .illegalCommand s) := by
  rw [execTransaction, h]

/-- Every step ends, in one of these ways. -/
theorem step_ends (s : State) : ∃ t, step s = .next t ∧ StepEnds s t := by
  cases hhost : s.host with
  | nil => exact ⟨s, by rw [step, hhost], .waits hhost⟩
  | cons m rest =>
    cases m with
    | command tx =>
      rw [step_command hhost]
      cases hdecode : decode tx with
      | ok i =>
        obtain ⟨t, ht, hends⟩ := exec_ends i { s with host := rest }
        exact ⟨t, by rw [execTransaction_of_decode_ok hdecode, ht], .command tx rest i t hhost hdecode hends⟩
      | error e => exact ⟨_, execTransaction_of_decode_error hdecode _, .illegal tx rest e hhost hdecode⟩
    | reset => exact ⟨_, step_resets s _ rest hhost (.inl rfl), .resets _ rest hhost (.inl rfl)⟩
    | resetDuring tx => exact ⟨_, step_resets s _ rest hhost (.inr ⟨tx, rfl⟩), .resets _ rest hhost (.inr ⟨tx, rfl⟩)⟩

/-- The inversion: whatever a step answers, it ended in one of these ways. -/
theorem stepEnds_of_step {s t : State} (h : step s = .next t) : StepEnds s t := by
  obtain ⟨u, hu, hends⟩ := step_ends s
  obtain rfl : u = t := by rw [hu] at h; injection h
  exact hends

/-! ## `FIN` (R28) -/

/-- R152: in a finalized session every command but `INIT` leaves the architectural registers. -/
theorem CommandEnds.keeps_registers_of_closed {s t : State} {i : Instr} (hends : CommandEnds s i t)
    (hclosed : s.fin = true) (hi : i ≠ .init) : SameRegisters s t := by
  cases hends with
  | init => exact absurd rfl hi
  | absorbClosed | finalClosed | readClosed => exact ⟨rfl, rfl, rfl⟩
  | absorbUnaligned _ hfin | absorbAccepted _ _ hfin | finalAccepted _ _ hfin | readOpen _ hfin =>
    simp [hclosed] at hfin

/-- From an open session only `READ` and `FINAL` lead to a finalized one. -/
theorem CommandEnds.read_or_final_of_closes {s t : State} {i : Instr} (hends : CommandEnds s i t)
    (hopen : s.fin = false) (hclosed : t.fin = true) : i = .read ∨ ∃ p, i = .final p := by
  cases hends with
  | init => simp at hclosed
  | absorbClosed _ hfin => simp [hopen] at hfin
  | absorbUnaligned => simp [hopen] at hclosed
  | absorbAccepted p t _ _ _ hkeeps => simp [hkeeps.fin, hopen] at hclosed
  | finalClosed p | finalAccepted p => exact .inr ⟨p, rfl⟩
  | readClosed | readOpen => exact .inl rfl

theorem CommandEnds.open_of_init {s t : State} (hends : CommandEnds s .init t) : t.fin = false := by
  cases hends; rfl

/-- R133, R134: `FINAL` and `READ` leave the session finalized, also where `FINAL` is rejected. -/
theorem CommandEnds.closed_of_read_or_final {s t : State} {i : Instr} (hends : CommandEnds s i t)
    (hi : i = .read ∨ ∃ p, i = .final p) : t.fin = true := by
  cases hends with
  | init | absorbClosed | absorbUnaligned | absorbAccepted => simp at hi
  | finalClosed _ hfin | readClosed hfin => exact hfin
  | finalAccepted | readOpen => rfl

/-- R28: a step that clears `FIN` is a reset or `INIT`. -/
theorem StepEnds.reset_or_init_of_opens {s t : State} (hends : StepEnds s t) (hclosed : s.fin = true)
    (hopen : t.fin = false) :
    ∃ rest, s.host = .reset :: rest ∨ (∃ tx, s.host = .resetDuring tx :: rest) ∨
      ∃ tx, s.host = .command tx :: rest ∧ decode tx = .ok .init := by
  cases hends with
  | waits | illegal => simp [hclosed] at hopen
  | command tx rest i t hhost hdecode hends =>
    by_cases hi : i = .init
    · exact ⟨rest, .inr (.inr ⟨tx, hhost, hi ▸ hdecode⟩)⟩
    · obtain ⟨-, -, hfin⟩ := hends.keeps_registers_of_closed hclosed hi
      simp [hfin, hclosed] at hopen
  | resets m rest hhost hm =>
    rcases hm with rfl | ⟨tx, rfl⟩
    · exact ⟨rest, .inl hhost⟩
    · exact ⟨rest, .inr (.inl ⟨tx, hhost⟩)⟩

/-- Settles O45: by the ways a command and a step can end. -/
theorem finalizationIsPermanent : Obligations.FinalizationIsPermanent := by
  refine ⟨fun i s => ?_, rfl, fun s rest hhost => ?_, fun s t hstep => (stepEnds_of_step hstep).reset_or_init_of_opens⟩
  · obtain ⟨t, ht, hends⟩ := exec_ends i s
    refine ⟨t, ht, fun hclosed hi => ?_, hends.read_or_final_of_closes, ?_, hends.closed_of_read_or_final⟩
    · obtain ⟨hhash, hlen, hfin⟩ := hends.keeps_registers_of_closed hclosed hi
      exact ⟨hfin.trans hclosed, hhash, hlen⟩
    · rintro rfl
      exact hends.open_of_init
  · rcases hhost with hhost | ⟨tx, hhost⟩
    · exact ⟨_, step_resets s _ rest hhost (.inl rfl), rfl⟩
    · exact ⟨_, step_resets s _ rest hhost (.inr ⟨tx, rfl⟩), rfl⟩

/-! ## `LEN` (R26, R27) -/

/-- R76: the shift by 3 is the product with 8, modulo `2^64`. -/
theorem bitCount_eq_ofNat (p : List Byte) : bitCount p = BitVec.ofNat 64 (8 * p.length) := by
  apply BitVec.eq_of_toNat_eq
  simp [bitCount, Nat.shiftLeft_eq, Nat.mul_comm]

@[simp] theorem bitCount_nil : bitCount [] = 0 := rfl

theorem bitCount_append (p q : List Byte) : bitCount (p ++ q) = bitCount p + bitCount q := by
  simp only [bitCount_eq_ofNat, List.length_append, Nat.mul_add, BitVec.ofNat_add]

/-- 512 divides `2^64`, so the wrap of R26 keeps a sum of multiples of 512 one. -/
theorem toNat_add_mod_512 {x y : BitCount} (hx : x.toNat % 512 = 0) (hy : y.toNat % 512 = 0) :
    (x + y).toNat % 512 = 0 := by
  rw [BitVec.toNat_add]
  omega

/-- Whole blocks are a multiple of 512 bits, also after the wrap. -/
theorem bitCount_mod_512 {p : List Byte} (hp : p.length % 64 = 0) : (bitCount p).toNat % 512 = 0 := by
  rw [bitCount_eq_ofNat, BitVec.toNat_ofNat]
  omega

/-- R27, second half, for one command. -/
theorem CommandEnds.openLengthAligned {s t : State} {i : Instr} (hends : CommandEnds s i t)
    (hs : OpenLengthAligned s) : OpenLengthAligned t := by
  intro hopen
  cases hends with
  | init => rfl
  | absorbClosed | absorbUnaligned | finalClosed | readClosed => exact hs hopen
  | absorbAccepted p t hfin hp _ hkeeps =>
    rw [respond_len, hkeeps.len, addLength_len]
    exact toNat_add_mod_512 (hs hfin) (bitCount_mod_512 hp)
  | finalAccepted | readOpen => simp at hopen

/-- R27, second half, for one step. -/
theorem StepEnds.openLengthAligned {s t : State} (hends : StepEnds s t) (hs : OpenLengthAligned s) :
    OpenLengthAligned t := by
  cases hends with
  | waits | illegal => exact hs
  | command tx rest i t hhost hdecode hends => exact hends.openLengthAligned hs
  | resets => exact fun _ => rfl

/-- Settles O48: every step ends, and each way it can end keeps the invariant. -/
theorem openLengthStaysAligned : Obligations.OpenLengthStaysAligned := by
  intro s hs
  obtain ⟨t, ht, -⟩ := step_ends s
  exact ⟨⟨t, ht⟩, fun u hu => (stepEnds_of_step hu).openLengthAligned hs⟩

theorem Represents.openLengthAligned {a : Session} {s : State} (h : Represents a s) : OpenLengthAligned s := by
  intro hopen
  obtain ⟨hfin, hlen, -, hmessage⟩ := h
  obtain ⟨-, haligned⟩ := hmessage (hfin.symm.trans hopen)
  rw [hlen]
  exact bitCount_mod_512 haligned

/-- R27, first half: `LEN` follows the message of the session, command by command. -/
theorem CommandEnds.len_eq_bitCount {a : Session} {s t : State} {i : Instr} (hends : CommandEnds s i t)
    (h : Represents a s) : t.len = bitCount (a.after i).1.message := by
  obtain ⟨hclosed, hlen, -, -⟩ := h
  cases hends with
  | init => rfl
  | absorbClosed p hfin => simp [Session.after, ← hclosed, hfin, hlen]
  | absorbUnaligned p hfin hp => simp [Session.after, ← hclosed, hfin, hp, hlen]
  | absorbAccepted p t hfin hp _ hkeeps => simp [Session.after, ← hclosed, hfin, hp, hkeeps.len, hlen, bitCount_append]
  | finalClosed p hfin => simp [Session.after, ← hclosed, hfin, hlen]
  | finalAccepted p t hfin _ hkeeps => simp [Session.after, ← hclosed, hfin, hkeeps.len, hlen, bitCount_append]
  | readClosed => exact hlen
  | readOpen t _ _ hkeeps => simp [Session.after, hkeeps.len, hlen]

/-- Settles O47: `LEN` follows the session's message, and an open session's message is whole blocks. -/
theorem lengthCountsTheAcceptedBytes : Obligations.LengthCountsTheAcceptedBytes := by
  intro a s i h
  obtain ⟨t, ht, hends⟩ := exec_ends i s
  exact ⟨t, ht, (hends.len_eq_bitCount h).trans (bitCount_eq_ofNat _), hends.openLengthAligned h.openLengthAligned⟩

/-! ## Scratch: the schedule of a block does not depend on the `W` of before (R113, R114) -/

/-- The words below index `n` are the same. -/
def AgreeBelow (n : Nat) (v w : Vector Word 80) : Prop := ∀ (i : Nat) (h : i < 80), i < n → v[i] = w[i]

theorem AgreeBelow.eq {v w : Vector Word 80} (h : AgreeBelow 80 v w) : v = w :=
  Vector.ext fun i hi => h i hi hi

theorem AgreeBelow.setIfInBounds {n : Nat} {v w : Vector Word 80} (h : AgreeBelow n v w) (x : Word) :
    AgreeBelow (n + 1) (v.setIfInBounds n x) (w.setIfInBounds n x) := by
  intro i hi hin
  rcases Nat.lt_succ_iff_lt_or_eq.mp hin with hlt | rfl
  · simp [hlt.ne', h i hi hlt]
  · simp

/-- R113: the load settles as many words as it writes. -/
theorem agreeBelow_writeWords : ∀ (ws : List Word) {n : Nat} {v w : Vector Word 80}, AgreeBelow n v w →
    AgreeBelow (n + ws.length) (writeWords ws n v) (writeWords ws n w)
  | [], _, _, _, h => h
  | x :: ws, n, _, _, h => by
    have hrest := agreeBelow_writeWords ws (h.setIfInBounds x)
    rwa [Nat.add_right_comm] at hrest

/-- R114: the word made for index `t` comes from words below `t`. -/
theorem agreeBelow_expandWord {v w : Vector Word 80} {t : Fin 80} (ht : 16 ≤ t.val) (h : AgreeBelow t.val v w) :
    AgreeBelow (t.val + 1) (expandWord v t) (expandWord w t) := by
  intro i hi hin
  have hback : ∀ d : Nat, 0 < d → v[t.val - d] = w[t.val - d] :=
    fun d hd => h _ (by omega) (by omega)
  simp only [expandWord, Vector.getElem_set, hback 3 (by decide), hback 8 (by decide), hback 14 (by decide),
    hback 16 (by decide)]
  split
  · rfl
  · exact h i hi (by omega)

/-- R114: the expansion from index `n` on, in `k` turns, settles every word that was open. -/
theorem foldl_expandWord_eq_of_agreeBelow : ∀ (k : Nat) {n : Nat} {v w : Vector Word 80}, n + k = 80 → 16 ≤ n →
    AgreeBelow n v w →
    ((List.finRange 80).drop n).foldl expandWord v = ((List.finRange 80).drop n).foldl expandWord w
  | 0, n, v, w, hn, _, h => by
    obtain rfl : n = 80 := hn
    rw [h.eq]
  | k + 1, n, v, w, hn, h16, h => by
    have hlt : n < 80 := by omega
    have hstep : AgreeBelow (n + 1) (expandWord v ⟨n, hlt⟩) (expandWord w ⟨n, hlt⟩) :=
      agreeBelow_expandWord (t := ⟨n, hlt⟩) h16 h
    rw [List.drop_eq_getElem_cons (by simpa using hlt), List.getElem_finRange, List.foldl_cons, List.foldl_cons]
    exact foldl_expandWord_eq_of_agreeBelow k (by omega) (by omega) hstep

theorem expandSchedule_eq_of_agreeBelow {v w : Vector Word 80} (h : AgreeBelow 16 v w) :
    expandSchedule v = expandSchedule w := by
  rw [expandSchedule, expandSchedule, expansionIndices]
  exact foldl_expandWord_eq_of_agreeBelow 64 rfl le_rfl h

/-- The 16 words of a block settle the whole schedule. -/
theorem expandSchedule_writeWords {ws : List Word} (hlen : ws.length = 16) (v w : Vector Word 80) :
    expandSchedule (writeWords ws 0 v) = expandSchedule (writeWords ws 0 w) := by
  have hagree : AgreeBelow (0 + ws.length) (writeWords ws 0 v) (writeWords ws 0 w) :=
    agreeBelow_writeWords ws fun _ _ h => absurd h (Nat.not_lt_zero _)
  rw [hlen] at hagree
  exact expandSchedule_eq_of_agreeBelow hagree

/-! ## Scratch: states that look alike compute and answer alike (R25, R33) -/

theorem visible_eq_iff {s s' : State} : s.visible = s'.visible ↔
    s.hash = s'.hash ∧ s.len = s'.len ∧ s.fin = s'.fin ∧ s.host = s'.host ∧ s.responses = s'.responses := by
  simp [State.visible]

/-- Two runs of the datapath end without a fault, in states that look alike. -/
def ComputeAlike (x x' : Except Fault State) : Prop :=
  ∃ t t', x = .ok t ∧ x' = .ok t' ∧ t.visible = t'.visible

/-- Two outcomes go on, in states that look alike. -/
def AnswerAlike (o o' : Host.Outcome State Fault Refusal) : Prop :=
  ∃ t t', o = .next t ∧ o' = .next t' ∧ t.visible = t'.visible

theorem answerAlike_next {t t' : State} (h : t.visible = t'.visible) : AnswerAlike (.next t) (.next t') :=
  ⟨t, t', rfl, rfl, h⟩

/-- R122: `H` after a block comes from `H` and `BLK` alone. -/
theorem compressBlock_alike {s s' : State} (h : s.visible = s'.visible) (hblk : s.blk = s'.blk) :
    ComputeAlike (compressBlock s) (compressBlock s') := by
  obtain ⟨hhash, hlen, hfin, hhost, hresponses⟩ := visible_eq_iff.mp h
  obtain ⟨ws, hws, hwslen, hs⟩ := compressBlock_cases s
  obtain ⟨ws', hws', -, hs'⟩ := compressBlock_cases s'
  obtain rfl : ws = ws' := by rw [hblk, hws'] at hws; injection hws with hws; exact hws.symm
  refine ⟨_, _, hs, hs', visible_eq_iff.mpr ⟨?_, hlen, hfin, hhost, hresponses⟩⟩
  simp [hhash, expandSchedule_writeWords hwslen s.sched s'.sched]

theorem fetchBlock_visible (p : List Byte) (s : State) (k : Fin (p.length / 64)) :
    (fetchBlock p s k).visible = s.visible := rfl

/-- R110, R111: any list of blocks of a buffer. -/
theorem blocks_alike (p : List Byte) : ∀ (l : List (Fin (p.length / 64))) {s s' : State}, s.visible = s'.visible →
    ComputeAlike (l.foldlM (fun s k => compressBlock (fetchBlock p s k)) s)
      (l.foldlM (fun s k => compressBlock (fetchBlock p s k)) s')
  | [], s, s', h => ⟨s, s', rfl, rfl, h⟩
  | k :: l, s, s', h => by
    have hfetch : (fetchBlock p s k).visible = (fetchBlock p s' k).visible := by
      rw [fetchBlock_visible, fetchBlock_visible, h]
    obtain ⟨t, t', ht, ht', hvisible⟩ := compressBlock_alike hfetch rfl
    rw [List.foldlM_cons, List.foldlM_cons, ht, ht', ok_bind, ok_bind]
    exact blocks_alike p l hvisible

theorem compress_alike (p : List Byte) {s s' : State} (h : s.visible = s'.visible) :
    ComputeAlike (compress p s) (compress p s') :=
  blocks_alike p _ h

theorem addLength_alike (p : List Byte) {s s' : State} (h : s.visible = s'.visible) :
    (addLength p s).visible = (addLength p s').visible := by
  simpa [visible_eq_iff] using h

theorem closeSession_alike {s s' : State} (h : s.visible = s'.visible) :
    (closeSession s).visible = (closeSession s').visible := by
  simp_all [visible_eq_iff]

theorem respond_alike (r : Response) {s s' : State} (h : s.visible = s'.visible) :
    (respond r s).visible = (respond r s').visible := by
  simpa [visible_eq_iff] using h

theorem startSession_alike {s s' : State} (h : s.visible = s'.visible) :
    (startSession s).visible = (startSession s').visible := by
  simp_all [visible_eq_iff]

/-- R170: the free values a reset draws are scratch, so they are not seen. -/
theorem resetEngine_alike {s s' : State} (h : s.visible = s'.visible) :
    (resetEngine s).visible = (resetEngine s').visible := by
  simp_all [visible_eq_iff]

theorem finalizeWith_alike (p : List Byte) {s s' : State} (h : s.visible = s'.visible) :
    ComputeAlike (finalizeWith p s) (finalizeWith p s') := by
  have hadd := addLength_alike p h
  obtain ⟨-, hlen, -⟩ := visible_eq_iff.mp hadd
  obtain ⟨t, t', ht, ht', hvisible⟩ := compress_alike (pad p (addLength p s).len) hadd
  exact ⟨closeSession t, closeSession t', by rw [finalizeWith, ht], by rw [finalizeWith, ← hlen, ht'],
    closeSession_alike hvisible⟩

/-- A command ends alike when its record reads only what can be seen. -/
theorem conclude_alike {r : State → Response} (hr : ∀ t t' : State, t.visible = t'.visible → r t = r t')
    {x x' : Except Fault State} (h : ComputeAlike x x') : AnswerAlike (conclude r x) (conclude r x') := by
  obtain ⟨t, t', rfl, rfl, hvisible⟩ := h
  rw [conclude, conclude, hr t t' hvisible]
  exact answerAlike_next (respond_alike _ hvisible)

theorem exec_alike (i : Instr) {s s' : State} (h : s.visible = s'.visible) : AnswerAlike (exec i s) (exec i s') := by
  obtain ⟨-, -, hfin, -⟩ := visible_eq_iff.mp h
  cases i with
  | init => exact answerAlike_next (respond_alike _ (startSession_alike h))
  | absorb p =>
    rw [exec, exec, execAbsorb, execAbsorb, ← hfin]
    split_ifs
    · exact answerAlike_next (respond_alike _ h)
    · exact answerAlike_next (respond_alike _ h)
    · exact conclude_alike (fun _ _ _ => rfl) (compress_alike p (addLength_alike p h))
  | final p =>
    rw [exec, exec, execFinal, execFinal, ← hfin]
    split_ifs
    · exact answerAlike_next (respond_alike _ h)
    · exact conclude_alike (fun _ _ _ => rfl) (finalizeWith_alike p h)
  | read =>
    have hrecord : ∀ t t' : State, t.visible = t'.visible → digestResponse t.hash = digestResponse t'.hash :=
      fun t t' hvisible => by rw [(visible_eq_iff.mp hvisible).1]
    rw [exec, exec, execRead, execRead, ← hfin]
    split_ifs
    · exact conclude_alike hrecord ⟨s, s', rfl, rfl, h⟩
    · exact conclude_alike hrecord (finalizeWith_alike [] h)

theorem execTransaction_alike (tx : Transaction) {s s' : State} (h : s.visible = s'.visible) :
    AnswerAlike (execTransaction tx s) (execTransaction tx s') := by
  cases hdecode : decode tx with
  | ok i =>
    rw [execTransaction_of_decode_ok hdecode, execTransaction_of_decode_ok hdecode]
    exact exec_alike i h
  | error e =>
    rw [execTransaction_of_decode_error hdecode, execTransaction_of_decode_error hdecode]
    exact answerAlike_next (respond_alike _ h)

/-- R6: the host's moves are seen, so both machines get the same one. -/
theorem step_alike {s s' : State} (h : s.visible = s'.visible) : AnswerAlike (step s) (step s') := by
  obtain ⟨hhash, hlen, hfin, hhost, hresponses⟩ := visible_eq_iff.mp h
  have htaken (rest : List HostMove) :
      ({ s with host := rest } : State).visible = ({ s' with host := rest } : State).visible :=
    visible_eq_iff.mpr ⟨hhash, hlen, hfin, rfl, hresponses⟩
  rw [step, step, ← hhost]
  cases s.host with
  | nil => exact answerAlike_next h
  | cons m rest =>
    cases m with
    | command tx => exact execTransaction_alike tx (htaken rest)
    | reset | resetDuring => exact answerAlike_next (resetEngine_alike (htaken rest))

/-- Settles O50, by induction on the number of steps: a step from states that look alike leads to states that look alike. -/
theorem scratchIsNeverSeen : Obligations.ScratchIsNeverSeen := by
  intro n
  induction n with
  | zero => exact fun s s' h => ⟨s, s', run_zero s, run_zero s', h⟩
  | succ n ih =>
    intro s s' h
    obtain ⟨t, t', ht, ht', hvisible⟩ := step_alike h
    rw [run_succ n ht, run_succ n ht']
    exact ih t t' hvisible

end Sys2Proof.Machine
end

section
/-! SUPPORT and PROOFS of the memory family: the message buffer (R59), the words of its blocks (R53, R113), the digest's views
(R56), and the length suffix of a padded buffer (R55). -/

namespace Sys2Proof.Machine

/-! ## Big-endian values and `MemRead` (R11, R59) -/

theorem toNat_append_eq_mul_add {m n : Nat} (x : BitVec m) (y : BitVec n) :
    (x ++ y).toNat = x.toNat * 2 ^ n + y.toNat := by
  rw [BitVec.toNat_append, ← Nat.shiftLeft_add_eq_or_of_lt y.isLt, Nat.shiftLeft_eq]

/-- R11: byte 0 is most significant. -/
theorem be32_toNat (b0 b1 b2 b3 : Byte) :
    (be32 b0 b1 b2 b3).toNat = b0.toNat * 2 ^ 24 + b1.toNat * 2 ^ 16 + b2.toNat * 2 ^ 8 + b3.toNat := by
  simp only [be32, toNat_append_eq_mul_add]
  omega

theorem bigEndianValue_append_singleton (b : List Byte) (x : Byte) :
    bigEndianValue (b ++ [x]) = 256 * bigEndianValue b + x.toNat := by
  simp [bigEndianValue]

theorem bigEndianValue_append (b c : List Byte) :
    bigEndianValue (b ++ c) = bigEndianValue b * 256 ^ c.length + bigEndianValue c := by
  induction c using List.reverseRecOn with
  | nil => simp [bigEndianValue]
  | append_singleton c x ih =>
    rw [← List.append_assoc, bigEndianValue_append_singleton, bigEndianValue_append_singleton, ih, List.length_append,
      List.length_singleton, Nat.pow_succ]
    ring

/-- `be32` is the big-endian value of its four bytes. -/
theorem bigEndianValue_four (b0 b1 b2 b3 : Byte) : bigEndianValue [b0, b1, b2, b3] = (be32 b0 b1 b2 b3).toNat := by
  rw [be32_toNat]
  simp only [bigEndianValue, List.foldl_cons, List.foldl_nil]
  omega

/-- Eight bytes are two words, the first one most significant. -/
theorem bigEndianValue_eight (b0 b1 b2 b3 b4 b5 b6 b7 : Byte) :
    bigEndianValue ([b0, b1, b2, b3] ++ [b4, b5, b6, b7]) = (be32 b0 b1 b2 b3 ++ be32 b4 b5 b6 b7).toNat := by
  rw [bigEndianValue_append, bigEndianValue_four, bigEndianValue_four, toNat_append_eq_mul_add]
  norm_num

theorem take_four_drop {p : List Byte} {addr : Nat} (h : addr + 4 ≤ p.length) :
    (p.drop addr).take 4 = [p[addr], p[addr + 1], p[addr + 2], p[addr + 3]] := by
  rw [List.drop_eq_getElem_cons (by omega), List.drop_eq_getElem_cons (by omega), List.drop_eq_getElem_cons (by omega),
    List.drop_eq_getElem_cons (by omega)]
  rfl

/-- R59: inside its precondition `MemRead` is the value of the bytes it covers. -/
theorem memRead_eq {p : List Byte} {addr n : Nat} (h : addr + n ≤ p.length) (hn : n = 1 ∨ n = 4 ∨ n = 8) :
    memRead p addr n = some (BitVec.ofNat (8 * n) (bigEndianValue ((p.drop addr).take n))) :=
  if_pos ⟨h, hn⟩

theorem memRead_one {p : List Byte} {addr : Nat} (h : addr + 1 ≤ p.length) : memRead p addr 1 = some p[addr] := by
  rw [memRead_eq h (.inl rfl), List.drop_eq_getElem_cons h, List.take_succ_cons, List.take_zero]
  simp [bigEndianValue]

theorem memRead_four {p : List Byte} {addr : Nat} (h : addr + 4 ≤ p.length) :
    memRead p addr 4 = some (be32 p[addr] p[addr + 1] p[addr + 2] p[addr + 3]) := by
  rw [memRead_eq h (.inr (.inl rfl)), take_four_drop h, bigEndianValue_four, BitVec.ofNat_toNat, BitVec.setWidth_eq]

theorem memRead_eight {p : List Byte} {addr : Nat} (h : addr + 8 ≤ p.length) :
    memRead p addr 8 = some (be32 p[addr] p[addr + 1] p[addr + 2] p[addr + 3] ++
      be32 p[addr + 4] p[addr + 5] p[addr + 6] p[addr + 7]) := by
  have hsplit : (p.drop addr).take 8 = (p.drop addr).take 4 ++ (p.drop (addr + 4)).take 4 := by
    rw [← List.drop_drop, ← List.take_add]
  rw [memRead_eq h (.inr (.inr rfl)), hsplit, take_four_drop (by omega), take_four_drop (by omega), bigEndianValue_eight,
    BitVec.ofNat_toNat, BitVec.setWidth_eq]

/-! ## The bytes of a value and `MemWrite` (R59) -/

theorem extractLsb'_extractLsb' {w m n a b : Nat} (x : BitVec w) (h : b + n ≤ m) :
    (x.extractLsb' a m).extractLsb' b n = x.extractLsb' (a + b) n := by
  ext i hi
  have hbound : b + i < m := by omega
  simp [hbound, Nat.add_assoc]

/-- Byte `j` of an `8n`-bit value is its bits `8(n - 1 - j) + 7 .. 8(n - 1 - j)`. -/
theorem bigEndianBytes_getElem? : ∀ {n : Nat} (v : BitVec (8 * n)) {j : Nat}, j < n →
    (bigEndianBytes n v)[j]? = some (v.extractLsb' (8 * (n - 1 - j)) 8)
  | n + 1, v, 0, _ => by simp [bigEndianBytes]
  | n + 1, v, j + 1, hj => by
    have hrest := bigEndianBytes_getElem? (v.extractLsb' 0 (8 * n)) (j := j) (by omega)
    rw [bigEndianBytes, List.getElem?_cons_succ, hrest, extractLsb'_extractLsb' _ (by omega), Nat.zero_add,
      show n + 1 - 1 - (j + 1) = n - 1 - j by omega]

theorem memWrite_at_end (p : List Byte) (n : Nat) (v : BitVec (8 * n)) :
    memWrite p p.length n v = some (p ++ bigEndianBytes n v) :=
  if_pos rfl

/-- Settles O12: `memRead_one`, `memRead_four`, `memRead_eight`, and an append of the value's bytes. -/
theorem messageBufferIsBigEndian : Obligations.MessageBufferIsBigEndian := by
  refine ⟨fun _ _ => memRead_one, fun _ _ => memRead_four, fun _ _ => memRead_eight,
    fun p n v => ⟨_, memWrite_at_end p n v, by simp, List.take_left, fun j hj => ?_⟩⟩
  rw [List.getElem?_append_right (Nat.le_add_right _ _), Nat.add_sub_cancel_left, bigEndianBytes_getElem? v hj]

/-! ## The words of a block (R53, R90, R113) -/

/-- R90: word `j` is the four bytes from `4j` on. -/
theorem bytesToWords_getElem? : ∀ {b : List Byte} {ws : List Word}, bytesToWords b = .ok ws →
    ∀ {j : Nat} (h : 4 * j + 3 < b.length), ws[j]? = some (be32 b[4 * j] b[4 * j + 1] b[4 * j + 2] b[4 * j + 3])
  | b0 :: b1 :: b2 :: b3 :: rest, ws, hws, j, h => by
    rw [bytesToWords_cons] at hws
    cases hrest : bytesToWords rest with
    | error f => simp [hrest, Except.map] at hws
    | ok us =>
      obtain rfl : be32 b0 b1 b2 b3 :: us = ws := by simpa [hrest, Except.map] using hws
      cases j with
      | zero => rfl
      | succ j => exact bytesToWords_getElem? hrest (j := j) (by simp at h; omega)
  | [], _, _, _, h | [_], _, _, _, h | [_, _], _, _, _, h | [_, _, _], _, _, _, h => by simp at h

theorem writeWords_getElem_of_lt : ∀ (ws : List Word) {n : Nat} (w : Vector Word 80) {i : Nat} (hi : i < 80), i < n →
    (writeWords ws n w)[i] = w[i]
  | [], _, _, _, _, _ => rfl
  | x :: ws, n, w, i, hi, hin => by
    rw [writeWords, writeWords_getElem_of_lt ws _ hi (by omega), Vector.getElem_setIfInBounds_ne hi (by omega)]

/-- R113: the words written from index `n` on. -/
theorem writeWords_getElem_add : ∀ (ws : List Word) {n : Nat} (w : Vector Word 80) {i : Nat} (hi : n + i < 80)
    (hlen : i < ws.length), (writeWords ws n w)[n + i] = ws[i]
  | x :: ws, n, w, 0, hi, _ => by
    rw [writeWords]
    exact (writeWords_getElem_of_lt ws _ hi (Nat.lt_succ_self _)).trans (Vector.getElem_setIfInBounds_self hi)
  | x :: ws, n, w, i + 1, hi, hlen => by
    have hrest := writeWords_getElem_add ws (n := n + 1) (w.setIfInBounds n x) (i := i) (by omega)
      (Nat.lt_of_succ_lt_succ hlen)
    simpa [writeWords, Nat.add_right_comm n 1 i, Nat.add_assoc] using hrest

/-- R113: the load step fills `W[0..15]` from `BLK`. -/
theorem loadSchedule_words (s : State) : ∃ t, loadSchedule s = .ok t ∧ ∀ (i : Nat) (hi : i < 16),
    t.sched[i] = be32 s.blk[4 * i] s.blk[4 * i + 1] s.blk[4 * i + 2] s.blk[4 * i + 3] := by
  obtain ⟨ws, hws, hlen, hload⟩ := loadSchedule_cases s
  refine ⟨_, hload, fun i hi => ?_⟩
  have hword := bytesToWords_getElem? hws (j := i) (by simp; omega)
  have hwritten := writeWords_getElem_add ws (n := 0) s.sched (i := i) (by omega) (by omega)
  rw [List.getElem?_eq_getElem (by omega), Option.some_inj] at hword
  simpa [hword] using hwritten

/-- R111: byte `i` of block `k`. -/
@[simp] theorem blockAt_getElem (p : List Byte) {k i : Nat} (hk : k < p.length / 64) (hi : i < 64) :
    (blockAt p k hk)[i] = p[64 * k + i]'(by omega) := by
  simp [blockAt]

/-- R53: word `i` of block `k` is the big-endian word at offset `64k + 4i`. -/
theorem loadSchedule_fetchBlock (p : List Byte) (s : State) (k : Fin (p.length / 64)) :
    ∃ t, loadSchedule (fetchBlock p s k) = .ok t ∧ ∀ (i : Nat) (hi : i < 16),
      memRead p (64 * k.val + 4 * i) 4 = some t.sched[i] := by
  obtain ⟨t, hload, hwords⟩ := loadSchedule_words (fetchBlock p s k)
  refine ⟨t, hload, fun i hi => ?_⟩
  have hk := k.isLt
  rw [memRead_four (by omega), hwords i hi]
  simp [Nat.add_assoc]

/-- Settles O13: `loadSchedule_fetchBlock`. -/
theorem blockWordsComeFromTheBuffer : Obligations.BlockWordsComeFromTheBuffer := by
  intro p s k i hi
  obtain ⟨t, hload, hwords⟩ := loadSchedule_fetchBlock p s k
  exact ⟨t, hload, hwords i hi⟩

/-! ## The digest's views (R56) -/

/-- When every piece has `n` items, item `na + b` of the whole is item `b` of piece `a`. -/
theorem flatMap_getElem?_of_length {α β : Type} {f : α → List β} {n : Nat} (hf : ∀ x, (f x).length = n) {b : Nat}
    (hb : b < n) : ∀ {l : List α} {a : Nat} {x : α}, l[a]? = some x → (l.flatMap f)[n * a + b]? = (f x)[b]?
  | y :: l, 0, x, h => by
    obtain rfl : y = x := by simpa using h
    rw [List.flatMap_cons, List.getElem?_append_left (by rw [hf]; omega), Nat.mul_zero, Nat.zero_add]
  | y :: l, a + 1, x, h => by
    have hrest := flatMap_getElem?_of_length hf hb (l := l) (a := a) (x := x) (by simpa using h)
    rw [List.flatMap_cons, List.getElem?_append_right (by rw [hf, Nat.mul_succ]; omega), hf, ← hrest,
      show n * (a + 1) + b - n = n * a + b by rw [Nat.mul_succ]; omega]

/-- R92: digit `c` of a word, from the most significant one. -/
theorem wordToHex_getElem? (w : Word) {c : Nat} (hc : c < 8) :
    (wordToHex w)[c]? = some (hexDigit (w.extractLsb' (4 * (7 - c)) 4)) := by
  interval_cases c <;> rfl

theorem digest_toNat (h : Hash) : h.digest.toNat =
    h.h0.toNat * 2 ^ 128 + h.h1.toNat * 2 ^ 96 + h.h2.toNat * 2 ^ 64 + h.h3.toNat * 2 ^ 32 + h.h4.toNat := by
  simp only [Hash.digest, toNat_append_eq_mul_add]
  omega

/-- R56: word `a` of the digest, from the most significant one. -/
theorem words_getElem? (h : Hash) {a : Nat} (ha : a < 5) :
    h.words[a]? = some (h.digest.extractLsb' (32 * (4 - a)) 32) := by
  have hword (w : Word) (d : Nat) (hw : w.toNat = h.digest.toNat / 2 ^ (32 * d) % 2 ^ 32) :
      some w = some (h.digest.extractLsb' (32 * d) 32) :=
    congrArg some (BitVec.eq_of_toNat_eq (by rw [BitVec.extractLsb'_toNat, Nat.shiftRight_eq_div_pow, hw]))
  rw [digest_toNat] at hword
  interval_cases a <;> exact hword _ _ (by omega)

/-- R56: byte `4a + b` of the 20 bytes. -/
theorem digest_byte (h : Hash) {a b : Nat} (ha : a < 5) (hb : b < 4) :
    (h.words.flatMap (bigEndianBytes 4))[4 * a + b]? = some (h.digest.extractLsb' (32 * (4 - a) + 8 * (3 - b)) 8) := by
  rw [flatMap_getElem?_of_length (bigEndianBytes_length 4) hb (words_getElem? h ha), bigEndianBytes_getElem? _ hb,
    extractLsb'_extractLsb' _ (by omega)]

/-- R56: character `8a + c` of the 40. -/
theorem digest_hexDigit (h : Hash) {a c : Nat} (ha : a < 5) (hc : c < 8) :
    (wordsToHex h.words)[8 * a + c]? = some (hexDigit (h.digest.extractLsb' (32 * (4 - a) + 4 * (7 - c)) 4)) := by
  rw [wordsToHex, flatMap_getElem?_of_length wordToHex_length hc (words_getElem? h ha), wordToHex_getElem? _ hc,
    extractLsb'_extractLsb' _ (by omega)]

/-- Settles O14: byte `j` is byte `j % 4` of word `j / 4`, and its digits are `2(j % 4)` and the next of that word's eight. -/
theorem digestViewsAgree : Obligations.DigestViewsAgree := by
  refine fun h => ⟨digest_toNat h, rfl, fun j hj => ?_⟩
  obtain ⟨a, b, hb, rfl⟩ : ∃ a b, b < 4 ∧ j = 4 * a + b := ⟨j / 4, j % 4, by omega, by omega⟩
  have hbyte := digest_byte h (a := a) (by omega) hb
  have hhigh := digest_hexDigit h (a := a) (c := 2 * b) (by omega) (by omega)
  have hlow := digest_hexDigit h (a := a) (c := 2 * b + 1) (by omega) (by omega)
  refine ⟨?_, ?_, ?_⟩
  · rw [hbyte, show 32 * (4 - a) + 8 * (3 - b) = 152 - 8 * (4 * a + b) by omega]
  · rw [show 2 * (4 * a + b) = 8 * a + 2 * b by omega, hhigh,
      show 32 * (4 - a) + 4 * (7 - 2 * b) = 156 - 8 * (4 * a + b) by omega]
  · rw [show 2 * (4 * a + b) + 1 = 8 * a + (2 * b + 1) by omega, hlow,
      show 32 * (4 - a) + 4 * (7 - (2 * b + 1)) = 152 - 8 * (4 * a + b) by omega]

/-! ## The length suffix (R55, R102, R103) -/

/-- R102: enough turns append the `z` zeros that bring the length to 56 mod 64. -/
theorem appendZeros_eq : ∀ {fuel z : Nat} {p : List Byte}, z ≤ fuel → z < 64 → (p.length + z) % 64 = 56 →
    appendZeros fuel p = p ++ List.replicate z 0x00
  | 0, 0, p, _, _, _ => by simp [appendZeros]
  | fuel + 1, 0, p, _, _, hlen => by simp_all [appendZeros]
  | fuel + 1, z + 1, p, hz, hz64, hlen => by
    rw [appendZeros, if_neg (by omega), appendZeros_eq (z := z) (by omega) (by omega) (by simp; omega),
      List.replicate_succ, List.append_assoc, List.singleton_append]

/-- R104: the closed form of the padded message. -/
theorem pad_eq (chunk : List Byte) (total : BitCount) : pad chunk total =
    chunk ++ [0x80] ++ List.replicate ((55 + 64 * chunk.length - chunk.length) % 64) 0x00 ++ be64bytes total := by
  rw [pad, appendZeros_eq (z := (55 + 64 * chunk.length - chunk.length) % 64) (by omega) (by omega) (by simp; omega)]

/-- R104, R106: a padded buffer is whole blocks. -/
theorem pad_length_mod_64 (chunk : List Byte) (total : BitCount) : (pad chunk total).length % 64 = 0 := by
  simp only [pad_eq, List.length_append, List.length_singleton, List.length_replicate, be64bytes_length]
  omega

/-- R103: the last 8 bytes. -/
theorem drop_pad (chunk : List Byte) (total : BitCount) :
    (pad chunk total).drop ((pad chunk total).length - 8) = be64bytes total := by
  rw [pad, List.length_append, be64bytes_length, Nat.add_sub_cancel, List.drop_left]

theorem pad_suffix_getElem? (chunk : List Byte) (total : BitCount) {j : Nat} (hj : j < 8) :
    (pad chunk total)[(pad chunk total).length - 8 + j]? = some (total.extractLsb' (8 * (7 - j)) 8) := by
  rw [← List.getElem?_drop, drop_pad, be64bytes, bigEndianBytes_getElem? (n := 8) total hj]

/-- Four bytes in a row of a value are one word of it. -/
theorem be32_extractLsb' {w : Nat} (v : BitVec w) (a : Nat) :
    be32 (v.extractLsb' (a + 24) 8) (v.extractLsb' (a + 16) 8) (v.extractLsb' (a + 8) 8) (v.extractLsb' a 8) =
      v.extractLsb' a 32 := by
  rw [be32, BitVec.extractLsb'_append_extractLsb'_eq_extractLsb' (show a + 24 = a + 16 + 8 from rfl),
    BitVec.extractLsb'_append_extractLsb'_eq_extractLsb' (show a + 16 = a + 8 + 8 from rfl),
    BitVec.extractLsb'_append_extractLsb'_eq_extractLsb' rfl]

/-- R55: the two words of the length suffix, at `j = 0` and `j = 4`. -/
theorem memRead_pad_suffix (chunk : List Byte) (total : BitCount) {j : Nat} (hj : j ≤ 4) :
    memRead (pad chunk total) ((pad chunk total).length - 8 + j) 4 = some (total.extractLsb' (8 * (4 - j)) 32) := by
  have hlong : 8 ≤ (pad chunk total).length := by simp [pad]
  have hbyte (i : Nat) (hi : i < 4) :
      (pad chunk total)[(pad chunk total).length - 8 + j + i] = total.extractLsb' (8 * (4 - j) + 8 * (3 - i)) 8 := by
    have hsuffix := pad_suffix_getElem? chunk total (j := j + i) (by omega)
    rw [← Nat.add_assoc, List.getElem?_eq_getElem (by omega), Option.some_inj] at hsuffix
    rw [hsuffix, show 8 * (7 - (j + i)) = 8 * (4 - j) + 8 * (3 - i) by omega]
  have hfirst : (pad chunk total)[(pad chunk total).length - 8 + j] = _ := hbyte 0 (by decide)
  rw [memRead_four (by omega), hfirst, hbyte 1 (by decide), hbyte 2 (by decide), hbyte 3 (by decide)]
  exact congrArg some (be32_extractLsb' total (8 * (4 - j)))

/-- Settles O20: the last block is the last 64 bytes, so its words 14 and 15 are those of the suffix. -/
theorem lengthSuffixIsWords14And15 : Obligations.LengthSuffixIsWords14And15 := by
  intro chunk total s k hk
  obtain ⟨t, hload, hwords⟩ := loadSchedule_fetchBlock (pad chunk total) s k
  have hwhole := pad_length_mod_64 chunk total
  have hhigh := hwords 14 (by decide)
  have hlow := hwords 15 (by decide)
  rw [show 64 * k.val + 4 * 14 = (pad chunk total).length - 8 + 0 by omega, memRead_pad_suffix chunk total (by decide),
    Option.some_inj] at hhigh
  rw [show 64 * k.val + 4 * 15 = (pad chunk total).length - 8 + 4 by omega, memRead_pad_suffix chunk total (by decide),
    Option.some_inj] at hlow
  exact ⟨drop_pad chunk total, t, hload, hhigh.symm, hlow.symm⟩

end Sys2Proof.Machine
end

section
/-! SUPPORT and PROOFS of the encoding family: the fields of a command word (R72), how a word can decode (R77, R82), the
opcode map (R75), the response record (R78, R79), and the examples of the command lines (R80, R81). -/

namespace Sys2Proof

/-! ## The fields of a command word (R72) -/

/-- The two fields are the whole word. -/
theorem opField_append_lenField (w : CommandWord) : opField w ++ lenField w = w := by
  rw [opField, lenField, BitVec.extractLsb'_append_extractLsb'_eq_extractLsb' (show 61 = 0 + 61 from rfl)]
  exact BitVec.extractLsb'_eq_self

theorem word_eq_iff {v w : CommandWord} : v = w ↔ opField v = opField w ∧ lenField v = lenField w := by
  refine ⟨fun h => h ▸ ⟨rfl, rfl⟩, fun ⟨hop, hlen⟩ => ?_⟩
  rw [← opField_append_lenField v, hop, hlen, opField_append_lenField]

@[simp] theorem opField_and (v w : CommandWord) : opField (v &&& w) = opField v &&& opField w :=
  BitVec.extractLsb'_and

@[simp] theorem lenField_and (v w : CommandWord) : lenField (v &&& w) = lenField v &&& lenField w :=
  BitVec.extractLsb'_and

/-- R71: `exact` in terms of the field. -/
theorem Transaction.payload_length (tx : Transaction) : tx.payload.length = (lenField tx.word).toNat := tx.exact

/-- R73: a payload is absent exactly when `lenb` is 0. -/
theorem Transaction.payload_eq_nil_iff (tx : Transaction) : tx.payload = [] ↔ lenField tx.word = 0 := by
  rw [← List.length_eq_zero_iff, tx.payload_length, ← BitVec.toNat_inj]
  rfl

theorem Transaction.payload_length_lt (tx : Transaction) : tx.payload.length < 2 ^ 61 :=
  tx.payload_length ▸ (lenField tx.word).isLt

/-! ## How a word can decode (R77, R82) -/

/-- The answers of R82, each with the condition on the fields under which it is given. -/
inductive DecodeEnds (tx : Transaction) : Except DecodeError Instr → Prop where
  | init (hop : opField tx.word = 0b001) (hlen : lenField tx.word = 0) : DecodeEnds tx (.ok .init)
  | absorb (hop : opField tx.word = 0b010) : DecodeEnds tx (.ok (.absorb tx.payload))
  | final (hop : opField tx.word = 0b011) : DecodeEnds tx (.ok (.final tx.payload))
  | read (hop : opField tx.word = 0b100) (hlen : lenField tx.word = 0) : DecodeEnds tx (.ok .read)
  | reservedLength (hop : opField tx.word = 0b001 ∨ opField tx.word = 0b100) (hlen : lenField tx.word ≠ 0) :
      DecodeEnds tx (.error (.reservedLength (opField tx.word) (lenField tx.word)))
  | reservedOp (hinit : opField tx.word ≠ 0b001) (habsorb : opField tx.word ≠ 0b010) (hfinal : opField tx.word ≠ 0b011)
      (hread : opField tx.word ≠ 0b100) : DecodeEnds tx (.error (.reservedOp (opField tx.word)))

theorem decode_ends (tx : Transaction) : DecodeEnds tx (decode tx) := by
  simp only [decode]
  split_ifs with hinit habsorb hfinal hread hlength
  · exact .init hinit.1 hinit.2
  · exact .absorb habsorb
  · exact .final hfinal
  · exact .read hread.1 hread.2
  · exact .reservedLength hlength fun hlen => hlength.elim (hinit ⟨·, hlen⟩) (hread ⟨·, hlen⟩)
  · exact .reservedOp (fun h => hlength (.inl h)) habsorb hfinal fun h => hlength (.inr h)

/-- A word decodes to a command exactly when it carries that command's `op` and payload. -/
theorem decode_eq_ok_iff {tx : Transaction} {i : Instr} :
    decode tx = .ok i ↔ opField tx.word = i.mnemonic.op ∧ tx.payload = i.payload := by
  constructor
  · intro h
    have hends := decode_ends tx
    rw [h] at hends
    cases hends with
    | init hop hlen | read hop hlen => exact ⟨hop, tx.payload_eq_nil_iff.mpr hlen⟩
    | absorb hop | final hop => exact ⟨hop, rfl⟩
  · rintro ⟨hop, hpayload⟩
    cases i with
    | init | read =>
      have hlen := tx.payload_eq_nil_iff.mp hpayload
      simp [decode, hop, hlen, Instr.mnemonic, Mnemonic.op]
    | absorb | final => simp [decode, hop, hpayload, Instr.mnemonic, Mnemonic.op, Instr.payload]

/-- R77: the words that stand for no command. -/
def ReservedWord (w : CommandWord) : Prop :=
  opField w ∈ [0b000, 0b101, 0b110, 0b111] ∨ (opField w ∈ [0b001, 0b100] ∧ lenField w ≠ 0)

/-- R75, R77: the eight values of `op`. -/
theorem op_reserved : ∀ op : BitVec 3, op ≠ 0b001 → op ≠ 0b010 → op ≠ 0b011 → op ≠ 0b100 →
    op ∈ [0b000, 0b101, 0b110, 0b111] := by decide

theorem DecodeEnds.reserved_iff {tx : Transaction} {answer : Except DecodeError Instr} (hends : DecodeEnds tx answer) :
    ReservedWord tx.word ↔ ∃ e, answer = .error e := by
  unfold ReservedWord
  cases hends with
  | init hop hlen | read hop hlen => simp [hop, hlen]
  | absorb hop | final hop => simp [hop]
  | reservedLength hop hlen => exact ⟨fun _ => ⟨_, rfl⟩, fun _ => .inr ⟨by simpa using hop, hlen⟩⟩
  | reservedOp hinit habsorb hfinal hread =>
    exact ⟨fun _ => ⟨_, rfl⟩, fun _ => .inl (op_reserved _ hinit habsorb hfinal hread)⟩

/-- R77: the reserved words are those the decoder refuses. -/
theorem reservedWord_iff {tx : Transaction} : ReservedWord tx.word ↔ ∃ e, decode tx = .error e :=
  (decode_ends tx).reserved_iff

theorem exists_decode_eq_ok_of_not_reserved {tx : Transaction} (h : ¬ReservedWord tx.word) : ∃ i, decode tx = .ok i := by
  rw [reservedWord_iff] at h
  cases hdecode : decode tx with
  | ok i => exact ⟨i, rfl⟩
  | error e => exact absurd ⟨e, hdecode⟩ h

/-! ## Decoding and encoding undo each other (R82) -/

theorem decode_encode (i : Instr) (h : i.WellFormed) : decode (encode i h) = .ok i :=
  decode_eq_ok_iff.mpr ⟨opField_encodeWord i, rfl⟩

/-- R71: a payload that a transaction carries fits the length field. -/
theorem wellFormed_of_decode_eq_ok {tx : Transaction} {i : Instr} (h : decode tx = .ok i) : i.WellFormed := by
  obtain ⟨-, hpayload⟩ := decode_eq_ok_iff.mp h
  rw [Instr.WellFormed, ← hpayload]
  exact tx.payload_length_lt

theorem encodeWord_eq_of_decode_eq_ok {tx : Transaction} {i : Instr} (h : decode tx = .ok i) : encodeWord i = tx.word := by
  obtain ⟨hop, hpayload⟩ := decode_eq_ok_iff.mp h
  rw [encodeWord, ← hop, ← hpayload, tx.payload_length, BitVec.ofNat_toNat, BitVec.setWidth_eq, opField_append_lenField]

theorem encode_eq_of_decode_eq_ok {tx : Transaction} {i : Instr} (h : decode tx = .ok i) :
    encode i (wellFormed_of_decode_eq_ok h) = tx := by
  obtain ⟨-, hpayload⟩ := decode_eq_ok_iff.mp h
  cases tx
  simp only [encode, Transaction.mk.injEq]
  exact ⟨encodeWord_eq_of_decode_eq_ok h, hpayload.symm⟩

/-! ## The opcode map (R75) -/

/-- The command of a row of the map with this payload; the format C0 has none (R73). -/
def Mnemonic.command (payload : List Byte) : Mnemonic → Instr
  | .INIT => .init
  | .ABSORB => .absorb payload
  | .FINAL => .final payload
  | .READ => .read

@[simp] theorem mnemonic_command (payload : List Byte) (m : Mnemonic) : (m.command payload).mnemonic = m := by
  cases m <;> rfl

theorem command_mnemonic_of_decode_eq_ok {tx : Transaction} {i : Instr} (h : decode tx = .ok i) :
    i.mnemonic.command tx.payload = i := by
  obtain ⟨-, hpayload⟩ := decode_eq_ok_iff.mp h
  rw [hpayload]
  cases i <;> rfl

@[simp] theorem opField_mask (m : Mnemonic) : opField m.mask = BitVec.allOnes 3 := by cases m <;> decide

@[simp] theorem opField_pattern (m : Mnemonic) : opField m.pattern = m.op := by cases m <;> decide

@[simp] theorem lenField_pattern (m : Mnemonic) : lenField m.pattern = 0 := by cases m <;> decide

/-- R73, R75: the mask of a row without payload covers `lenb`, that of a row with one leaves it free. -/
theorem lenField_mask (m : Mnemonic) :
    lenField m.mask = if m = .INIT ∨ m = .READ then BitVec.allOnes 61 else 0 := by
  cases m <;> decide

theorem selects_iff_fields (m : Mnemonic) (w : CommandWord) :
    m.selects w = true ↔ opField w = m.op ∧ (m = .INIT ∨ m = .READ → lenField w = 0) := by
  rw [Mnemonic.selects, beq_iff_eq, word_eq_iff, opField_and, lenField_and, opField_mask, opField_pattern,
    lenField_pattern, lenField_mask, BitVec.and_allOnes]
  by_cases hempty : m = .INIT ∨ m = .READ
  · rw [if_pos hempty, BitVec.and_allOnes, imp_iff_right hempty]
  · simp [hempty]

theorem payload_command_eq_iff (m : Mnemonic) (tx : Transaction) :
    tx.payload = (m.command tx.payload).payload ↔ (m = .INIT ∨ m = .READ → lenField tx.word = 0) := by
  rw [← tx.payload_eq_nil_iff]
  cases m <;> simp [Mnemonic.command, Instr.payload]

/-- R75: a word selects a row exactly when it decodes to that row's command. -/
theorem selects_iff_decode (m : Mnemonic) (tx : Transaction) :
    m.selects tx.word = true ↔ decode tx = .ok (m.command tx.payload) := by
  rw [selects_iff_fields, decode_eq_ok_iff, mnemonic_command, payload_command_eq_iff]

theorem selects_iff_exists_decode (m : Mnemonic) (tx : Transaction) :
    m.selects tx.word = true ↔ ∃ i, decode tx = .ok i ∧ i.mnemonic = m := by
  rw [selects_iff_decode]
  constructor
  · exact fun h => ⟨_, h, mnemonic_command _ m⟩
  · rintro ⟨i, h, rfl⟩
    rw [h, command_mnemonic_of_decode_eq_ok h]

/-- R71: every word can be presented. -/
theorem exists_transaction (w : CommandWord) : ∃ tx : Transaction, tx.word = w :=
  ⟨⟨w, List.replicate (lenField w).toNat 0, List.length_replicate⟩, rfl⟩

/-- R75: no word matches two rows, as no word decodes to two commands. -/
theorem selects_unique {w : CommandWord} {m n : Mnemonic} (hm : m.selects w = true) (hn : n.selects w = true) : m = n := by
  obtain ⟨tx, rfl⟩ := exists_transaction w
  rw [selects_iff_decode] at hm hn
  have hcommand : m.command tx.payload = n.command tx.payload := Except.ok.inj (hm.symm.trans hn)
  simpa using congrArg Instr.mnemonic hcommand

/-- Settles O3: the masks written out are those of `Mnemonic.mask`, row by row; a word that decodes selects its row. -/
theorem opcodeMapSelectsTheCommand : Obligations.OpcodeMapSelectsTheCommand := by
  have hrow (m : Mnemonic) (tx : Transaction) : tx.word &&& m.mask = m.pattern ↔ decode tx = .ok (m.command tx.payload) :=
    beq_iff_eq.symm.trans (selects_iff_decode m tx)
  refine ⟨fun tx => ⟨hrow .INIT tx, hrow .ABSORB tx, hrow .FINAL tx, hrow .READ tx⟩,
    fun tx m => selects_iff_exists_decode m tx, fun w m n => selects_unique, fun tx hnone => ?_⟩
  cases hdecode : decode tx with
  | error e => exact ⟨e, rfl⟩
  | ok i =>
    have hsome := (selects_iff_exists_decode i.mnemonic tx).mpr ⟨i, hdecode, rfl⟩
    simp [hnone] at hsome

end Sys2Proof

namespace Sys2Proof.Machine

/-! ## Decoding, encoding and the answer to a reserved word (R77, R82, R154) -/

/-- Settles O2: `decode_eq_ok_iff` for the branches that give a command, `reservedWord_iff` for the others. -/
theorem decodeAndEncodeAreInverse : Obligations.DecodeAndEncodeAreInverse := by
  refine ⟨fun tx => ?branches, ?reserved, ?words, ?encodeFirst, ?decodeFirst⟩
  case branches =>
    have hcommand (i : Instr) (hop : opField tx.word = i.mnemonic.op) (hpayload : tx.payload = i.payload) :
        decode tx = .ok i := decode_eq_ok_iff.mpr ⟨hop, hpayload⟩
    have hempty := tx.payload_eq_nil_iff.mpr
    exact ⟨fun hop hlen => hcommand .init hop (hempty hlen), fun hop => hcommand (.absorb _) hop rfl,
      fun hop => hcommand (.final _) hop rfl, fun hop hlen => hcommand .read hop (hempty hlen), reservedWord_iff.mp,
      tx.payload_length⟩
  case reserved =>
    exact fun tx e s h => ⟨_, execTransaction_of_decode_error h s, _, rfl, rfl⟩
  case words =>
    intro i
    cases i <;> rfl
  case encodeFirst => exact fun i h => ⟨rfl, rfl, decode_encode i h⟩
  case decodeFirst => exact fun tx i h => ⟨wellFormed_of_decode_eq_ok h, encode_eq_of_decode_eq_ok h⟩

/-- Settles O5: the step takes the transaction off the list, and the decoder refuses exactly the reserved words. -/
theorem reservedWordsAreRejected : Obligations.ReservedWordsAreRejected := by
  refine fun tx s rest hhost => ⟨fun hreserved => ?_, exists_decode_eq_ok_of_not_reserved⟩
  obtain ⟨e, hdecode⟩ := reservedWord_iff.mp hreserved
  rw [step_command hhost, execTransaction_of_decode_error hdecode]
  rfl

/-- Settles O8: the placed transaction is the host's next one, and taking it leaves the state it was placed in. -/
theorem placedWordRunsNext : Obligations.PlacedWordRunsNext := by
  intro s nbits w i hplaced
  have hdecode : decode (tableTransaction nbits w) = .ok i := by
    rw [decodeTableWord] at hplaced
    split at hplaced
    next j hj => rw [hj, Option.some.inj hplaced]
    next => cases hplaced
  rw [step_command (withFetchWord_host s nbits w), execTransaction_of_decode_ok hdecode]
  rfl

/-! ## The length of a chunk in bits (R72, R76) -/

/-- R76: `lenb` is below `2^61`, so the product with 8 is below `2^64`. -/
theorem bitCount_toNat_of_length_lt {p : List Byte} (h : p.length < 2 ^ 61) : (bitCount p).toNat = 8 * p.length := by
  rw [bitCount_eq_ofNat, BitVec.toNat_ofNat, Nat.mod_eq_of_lt (by omega)]

/-- Settles O4: by the width of `lenb`. -/
theorem bitCountOfAChunkNeverOverflows : Obligations.BitCountOfAChunkNeverOverflows := by
  intro tx
  have hlength : tx.payload.length = (tx.word.extractLsb' 0 61).toNat := tx.exact
  refine ⟨?_, ?_, bitCount_toNat_of_length_lt tx.payload_length_lt⟩
  · rw [hlength, BitVec.toNat_setWidth_of_le (by decide)]
  · rw [bitCount, hlength, BitVec.ofNat_toNat]

/-! ## The response record (R78, R79) -/

/-- Settles O42: the table of R79, which has a row for every status. -/
theorem statusCodes : Obligations.StatusCodes :=
  ⟨rfl, rfl, rfl, rfl, rfl, fun status => by cases status <;> decide⟩

theorem Response.bits_status (r : Response) : r.bits.extractLsb' 160 3 = r.status.code :=
  BitVec.extractLsb'_append_eq_left

theorem Response.bits_digest (r : Response) : r.bits.extractLsb' 0 160 = r.digest :=
  BitVec.extractLsb'_append_eq_right

/-- R78: the one record of a command, by the ways a command can end. -/
theorem CommandEnds.responds {s t : State} {i : Instr} (hends : CommandEnds s i t) :
    ∃ r, t.responses = s.responses ++ [r] ∧ (i = .read → r = digestResponse t.hash) ∧
      (i ≠ .read → ∃ status, r = plainResponse status) := by
  cases hends with
  | init | absorbClosed | absorbUnaligned | finalClosed => exact ⟨_, rfl, nofun, fun _ => ⟨_, rfl⟩⟩
  | absorbAccepted _ _ _ _ _ hkeeps | finalAccepted _ _ _ _ hkeeps =>
    exact ⟨_, congrArg (· ++ _) hkeeps.responses, nofun, fun _ => ⟨_, rfl⟩⟩
  | readClosed => exact ⟨_, rfl, fun _ => rfl, fun h => absurd rfl h⟩
  | readOpen _ _ _ hkeeps => exact ⟨_, congrArg (· ++ _) hkeeps.responses, fun _ => rfl, fun h => absurd rfl h⟩

/-- R78: the one record of a transaction; a reserved word's is plain (R77). -/
theorem execTransaction_responds (tx : Transaction) (s : State) :
    ∃ t r, execTransaction tx s = .next t ∧ t.responses = s.responses ++ [r] ∧
      (decode tx = .ok .read → r = digestResponse t.hash) ∧
      (decode tx ≠ .ok .read → ∃ status, r = plainResponse status) := by
  cases hdecode : decode tx with
  | ok i =>
    obtain ⟨t, ht, hends⟩ := exec_ends i s
    obtain ⟨r, hr, hread, hplain⟩ := hends.responds
    exact ⟨t, r, by rw [execTransaction_of_decode_ok hdecode, ht], hr, fun h => hread (Except.ok.inj h),
      fun h => hplain (mt (congrArg _) h)⟩
  | error e =>
    exact ⟨_, _, execTransaction_of_decode_error hdecode s, reject_responses _ s, nofun, fun _ => ⟨_, rfl⟩⟩

/-- Settles O43: a `READ` gives `digestResponse`, every other transaction `plainResponse`. -/
theorem onlyReadReturnsADigest : Obligations.OnlyReadReturnsADigest := by
  intro tx s
  obtain ⟨t, r, ht, hr, hread, hplain⟩ := execTransaction_responds tx s
  refine ⟨t, r, ht, hr, hread, fun h => ?_, r.bits_status, r.bits_digest⟩
  obtain ⟨status, rfl⟩ := hplain h
  exact ⟨rfl, rfl⟩

/-! ## The command lines (R80, R81) -/

/-- Settles O56: closed facts; the reader is run on each line, and each word is the value of `encodeWord`. -/
theorem assemblerExamples : Obligations.AssemblerExamples := by
  refine ⟨?_, rfl, ?_, ?_, ?_, rfl, ?_, rfl, ?_, ?_, rfl, ?_⟩ <;> decide +kernel

end Sys2Proof.Machine
end

section
/-! SUPPORT and PROOFS of the codec family (R90 to R94): groups of four bytes, the digits of a word, and their composition. -/

namespace Sys2Proof.Machine

/-! ## `bytesToWords` (R90, R91) -/

/-- R91: trailing 1 to 3 bytes are an error, never dropped or padded. -/
theorem bytesToWords_malformed : ∀ b : List Byte, b.length % 4 ≠ 0 → bytesToWords b = .error .malformedWordConversion
  | [], h => absurd rfl h
  | [_], _ | [_, _], _ | [_, _, _], _ => rfl
  | b0 :: b1 :: b2 :: b3 :: rest, h => by
    rw [bytesToWords_cons, bytesToWords_malformed rest (by simp only [List.length_cons] at h; omega)]
    rfl

/-- Settles O15: `bytesToWords_isOk` gives the words, `bytesToWords_getElem?` says which they are. -/
theorem bytesToWordsGroupsByFour : Obligations.BytesToWordsGroupsByFour := by
  refine ⟨fun b hwhole => ?_, be32_toNat, bytesToWords_malformed⟩
  obtain ⟨ws, hws, hlen⟩ := bytesToWords_isOk (b.length / 4) b (by omega)
  exact ⟨ws, hws, hlen, fun _ => bytesToWords_getElem? hws⟩

/-! ## `wordsToHex` (R92, R93) -/

theorem wordsToHex_length (ws : List Word) : (wordsToHex ws).length = 8 * ws.length := by
  induction ws with
  | nil => rfl
  | cons w ws ih => rw [wordsToHex_cons, List.length_append, wordToHex_length, ih, List.length_cons]; omega

/-- R92: character `8j + c` is digit `c` of word `j`, from the most significant one. -/
theorem wordsToHex_getElem? {ws : List Word} {j c : Nat} (hj : j < ws.length) (hc : c < 8) :
    (wordsToHex ws)[8 * j + c]? = some (hexDigit (ws[j].extractLsb' (4 * (7 - c)) 4)) := by
  rw [wordsToHex, flatMap_getElem?_of_length wordToHex_length hc (List.getElem?_eq_getElem hj), wordToHex_getElem? _ hc]

/-- R93: `0` to `9`. -/
theorem hexDigit_toNat_of_le {v : BitVec 4} (h : v.toNat ≤ 9) : (hexDigit v).toNat = 0x30 + v.toNat := by
  rw [hexDigit, if_pos h, BitVec.toNat_ofNat, Nat.mod_eq_of_lt (by omega)]

/-- R93: `a` to `f`. -/
theorem hexDigit_toNat_of_ge {v : BitVec 4} (h : 10 ≤ v.toNat) : (hexDigit v).toNat = 0x61 + (v.toNat - 10) := by
  rw [hexDigit, if_neg (by omega), BitVec.toNat_ofNat, Nat.mod_eq_of_lt (by omega)]

/-- Settles O16: digit `d` from the right is character `7 - d` of its word. -/
theorem wordsToHexPrintsEightDigits : Obligations.WordsToHexPrintsEightDigits := by
  refine ⟨fun ws => ⟨wordsToHex_length ws, fun j hj d hd => ?_⟩, fun _ => ⟨hexDigit_toNat_of_le, hexDigit_toNat_of_ge⟩⟩
  rw [wordsToHex_getElem? hj (by omega), show 7 - (7 - d) = d by omega]

/-! ## The composition (R94) -/

/-- R94: the two digits of a byte, high nibble first. -/
def byteToHex (x : Byte) : List Byte := [hexDigit (x.extractLsb' 4 4), hexDigit (x.extractLsb' 0 4)]

/-- R11: the bytes of a word that `be32` has put together. -/
theorem be32_bytes (b0 b1 b2 b3 : Byte) :
    [24, 16, 8, 0].map (fun a => (be32 b0 b1 b2 b3).extractLsb' a 8) = [b0, b1, b2, b3] := by
  have hbyte (a : Nat) (x : Byte) (hx : x.toNat = (be32 b0 b1 b2 b3).toNat / 2 ^ a % 2 ^ 8) :
      (be32 b0 b1 b2 b3).extractLsb' a 8 = x :=
    BitVec.eq_of_toNat_eq (by rw [BitVec.extractLsb'_toNat, Nat.shiftRight_eq_div_pow, hx])
  rw [be32_toNat] at hbyte
  simp only [List.map_cons, List.map_nil]
  rw [hbyte 24 b0 (by omega), hbyte 16 b1 (by omega), hbyte 8 b2 (by omega), hbyte 0 b3 (by omega)]

/-- The 8 digits of a word are the digits of its 4 bytes. -/
theorem wordToHex_eq_flatMap (w : Word) :
    wordToHex w = ([24, 16, 8, 0].map (fun a => w.extractLsb' a 8)).flatMap byteToHex := by
  simp [wordToHex, byteToHex, extractLsb'_extractLsb']

theorem wordToHex_be32 (b0 b1 b2 b3 : Byte) : wordToHex (be32 b0 b1 b2 b3) = [b0, b1, b2, b3].flatMap byteToHex := by
  rw [wordToHex_eq_flatMap, be32_bytes]

/-- A group of four bytes and the rest convert only when the rest does. -/
theorem bytesToWords_cons_eq_ok {b0 b1 b2 b3 : Byte} {rest : List Byte} {ws : List Word}
    (h : bytesToWords (b0 :: b1 :: b2 :: b3 :: rest) = .ok ws) :
    ∃ us, bytesToWords rest = .ok us ∧ ws = be32 b0 b1 b2 b3 :: us := by
  rw [bytesToWords_cons] at h
  cases hrest : bytesToWords rest with
  | error f => simp [hrest, Except.map] at h
  | ok us => exact ⟨us, rfl, by simpa [hrest, Except.map] using h.symm⟩

theorem wordsToHex_of_bytesToWords : ∀ {b : List Byte} {ws : List Word}, bytesToWords b = .ok ws →
    wordsToHex ws = b.flatMap byteToHex
  | [], _, rfl => rfl
  | b0 :: b1 :: b2 :: b3 :: rest, ws, h => by
    obtain ⟨us, hus, rfl⟩ := bytesToWords_cons_eq_ok h
    rw [wordsToHex_cons, wordToHex_be32, wordsToHex_of_bytesToWords hus, ← List.flatMap_append]
    rfl

/-- Settles O17: whole words convert, and `wordsToHex_of_bytesToWords` goes through them four bytes at a time. -/
theorem hexOfWordsIsHexOfBytes : Obligations.HexOfWordsIsHexOfBytes := by
  intro b hwhole
  obtain ⟨ws, hws, -⟩ := bytesToWords_isOk (b.length / 4) b (by omega)
  exact ⟨ws, hws, wordsToHex_of_bytesToWords hws⟩

end Sys2Proof.Machine
end

section
/-! SUPPORT and PROOFS of the padding family (R100 to R106): the length of a padded buffer, its bytes in order, and the value
of its last 8. -/

namespace Sys2Proof.Machine

/-! ## The length (R104) -/

/-- R104: `0x80` and 8 length bytes, filled up to whole blocks. -/
theorem pad_length (chunk : List Byte) (total : BitCount) :
    (pad chunk total).length = 64 * ((chunk.length + 8) / 64 + 1) := by
  simp only [pad_eq, List.length_append, List.length_singleton, List.length_replicate, be64bytes_length]
  omega

/-- R104: the chunk's whole blocks and one more, or two where the 9 bytes do not fit in the first. -/
theorem pad_length_eq_wholeBlocks (chunk : List Byte) (total : BitCount) :
    (pad chunk total).length = 64 * (chunk.length / 64 + if chunk.length % 64 ≤ 55 then 1 else 2) := by
  rw [pad_length]
  split <;> omega

/-- Settles O18: `pad_eq` is the form; the bounds are arithmetic on `pad_length`. -/
theorem paddingClosedForm : Obligations.PaddingClosedForm := by
  intro chunk total
  have hlen := pad_length chunk total
  refine ⟨pad_eq chunk total, hlen, pad_length_eq_wholeBlocks chunk total, ?_, ?_, fun h55 => ?_, fun h56 => ?_⟩ <;> omega

/-! ## The bytes before the suffix (R101, R102) -/

theorem take_pad (chunk : List Byte) (total : BitCount) : (pad chunk total).take chunk.length = chunk := by
  rw [pad_eq, List.append_assoc, List.append_assoc, List.take_left]

/-- R101: the mandatory `1` bit stands right after the chunk. -/
theorem pad_marker_getElem? (chunk : List Byte) (total : BitCount) : (pad chunk total)[chunk.length]? = some 0x80 := by
  rw [pad_eq, List.append_assoc, List.append_assoc, List.getElem?_append_right (Nat.le_refl _), Nat.sub_self]
  rfl

/-- R102: between the mark and the suffix stand only the zeros of the closed form. -/
theorem pad_zero_getElem? (chunk : List Byte) (total : BitCount) {j : Nat} (hafter : chunk.length < j)
    (hbefore : j < (pad chunk total).length - 8) : (pad chunk total)[j]? = some 0x00 := by
  rw [pad_eq, List.length_append, be64bytes_length, Nat.add_sub_cancel] at hbefore
  have hmark : (chunk ++ [(0x80 : Byte)]).length = chunk.length + 1 := List.length_append
  rw [pad_eq, List.getElem?_append_left hbefore, List.getElem?_append_right (by omega), List.getElem?_replicate_of_lt]
  rw [List.length_append, List.length_replicate] at hbefore
  omega

/-! ## The suffix (R103) -/

/-- R11, R59: reading a value's bytes big-endian gives the value back. -/
theorem bigEndianValue_bigEndianBytes : ∀ (n : Nat) (v : BitVec (8 * n)), bigEndianValue (bigEndianBytes n v) = v.toNat
  | 0, v => by rw [BitVec.eq_nil v]; rfl
  | n + 1, v => by
    have hpow : 256 ^ n = 2 ^ (8 * n) := (Nat.pow_mul 2 8 n).symm
    have hlt : v.toNat / 2 ^ (8 * n) < 256 := Nat.div_lt_of_lt_mul (v.isLt.trans_eq (Nat.pow_add 2 (8 * n) 8))
    have hhead : bigEndianValue [v.extractLsb' (8 * n) 8] = v.toNat / 256 ^ n := by
      simp [bigEndianValue, Nat.shiftRight_eq_div_pow, hpow, Nat.mod_eq_of_lt hlt]
    have htail : bigEndianValue (bigEndianBytes n (v.extractLsb' 0 (8 * n))) = v.toNat % 256 ^ n := by
      simp [bigEndianValue_bigEndianBytes n, hpow]
    rw [bigEndianBytes, ← List.singleton_append, bigEndianValue_append, hhead, htail, bigEndianBytes_length,
      Nat.div_add_mod']

/-- R103, R106: the last 8 bytes, read big-endian, are the total handed in. -/
theorem memRead_pad_length (chunk : List Byte) (total : BitCount) :
    memRead (pad chunk total) ((pad chunk total).length - 8) 8 = some total := by
  have hlen := pad_length chunk total
  rw [memRead_eq (by omega) (.inr (.inr rfl)), drop_pad, List.take_of_length_le (be64bytes_length total).le, be64bytes,
    bigEndianValue_bigEndianBytes, BitVec.ofNat_toNat, BitVec.setWidth_eq]

/-- Settles O19: the pieces of the closed form, one by one. -/
theorem paddingProperties : Obligations.PaddingProperties := fun b total =>
  ⟨pad_length_mod_64 b total, take_pad b total, pad_marker_getElem? b total, memRead_pad_length b total,
    fun _ => pad_zero_getElem? b total, bitCount_toNat_of_length_lt⟩

end Sys2Proof.Machine
end

section
/-! SUPPORT and PROOFS of the compression family (R110 to R123): the round's functions, the load, the schedule, the rounds, a
block as a function of `H` and 64 bytes, and the chain of blocks. -/

namespace Sys2Proof.Machine

/-! ## The round function and constants by range (R115, R116) -/

theorem roundFunction_of_le_19 {t : Fin 80} (h19 : t.val ≤ 19) (b c d : Word) : roundFunction t b c d = choose b c d :=
  if_pos h19

theorem roundFunction_of_le_39 {t : Fin 80} (h20 : 20 ≤ t.val) (h39 : t.val ≤ 39) (b c d : Word) :
    roundFunction t b c d = parity b c d := by
  rw [roundFunction, if_neg (by omega), if_pos h39]

theorem roundFunction_of_le_59 {t : Fin 80} (h40 : 40 ≤ t.val) (h59 : t.val ≤ 59) (b c d : Word) :
    roundFunction t b c d = majority b c d := by
  rw [roundFunction, if_neg (by omega), if_neg (by omega), if_pos h59]

theorem roundFunction_of_ge_60 {t : Fin 80} (h60 : 60 ≤ t.val) (b c d : Word) : roundFunction t b c d = parity b c d := by
  rw [roundFunction, if_neg (by omega), if_neg (by omega), if_neg (by omega)]

theorem choose_getLsbD (b c d : Word) {i : Nat} (hi : i < 32) :
    (choose b c d).getLsbD i = if b.getLsbD i then c.getLsbD i else d.getLsbD i := by
  rw [choose, BitVec.getLsbD_or, BitVec.getLsbD_and, BitVec.getLsbD_and, BitVec.getLsbD_not]
  cases b.getLsbD i <;> simp [hi]

theorem parity_getLsbD (b c d : Word) (i : Nat) :
    (parity b c d).getLsbD i = (b.getLsbD i != (c.getLsbD i != d.getLsbD i)) := by
  rw [parity, BitVec.getLsbD_xor, BitVec.getLsbD_xor, Bool.xor_assoc]

theorem majority_getLsbD (b c d : Word) (i : Nat) : (majority b c d).getLsbD i =
    decide (2 ≤ (b.getLsbD i).toNat + (c.getLsbD i).toNat + (d.getLsbD i).toNat) := by
  rw [majority, BitVec.getLsbD_or, BitVec.getLsbD_or, BitVec.getLsbD_and, BitVec.getLsbD_and, BitVec.getLsbD_and]
  cases b.getLsbD i <;> cases c.getLsbD i <;> cases d.getLsbD i <;> rfl

/-- Settles O24: the function of each range, bit by bit. -/
theorem roundFunctionTruthTables : Obligations.RoundFunctionTruthTables := by
  intro t b c d i hi
  refine ⟨fun h19 => ?_, fun h20 h39 => ?_, fun h40 h59 => ?_, fun h60 => ?_⟩
  · rw [roundFunction_of_le_19 h19, choose_getLsbD b c d hi]
  · rw [roundFunction_of_le_39 h20 h39, parity_getLsbD]
  · rw [roundFunction_of_le_59 h40 h59, majority_getLsbD]
  · rw [roundFunction_of_ge_60 h60, parity_getLsbD]

/-- Settles O25: the branches of `roundConstant` are the four ranges. -/
theorem roundConstantsByRange : Obligations.RoundConstantsByRange := by
  intro t
  refine ⟨fun h19 => if_pos h19, fun h20 h39 => ?_, fun h40 h59 => ?_, fun h60 => ?_⟩
  · rw [roundConstant, if_neg (by omega), if_pos h39]
  · rw [roundConstant, if_neg (by omega), if_neg (by omega), if_pos h59]
  · rw [roundConstant, if_neg (by omega), if_neg (by omega), if_neg (by omega)]

/-- Settles O26: reducing after each of the four additions is reducing the true sum once. -/
theorem roundSumIsModulo32Bits : Obligations.RoundSumIsModulo32Bits := by
  intro t w r
  simp only [roundSum, rotateLeft5, BitVec.toNat_add, Nat.mod_add_mod]

/-! ## The load (R113) -/

/-- R113: the words past the last one written. -/
theorem writeWords_getElem_of_ge : ∀ (ws : List Word) {n : Nat} (w : Vector Word 80) {i : Nat} (hi : i < 80),
    n + ws.length ≤ i → (writeWords ws n w)[i] = w[i]
  | [], _, _, _, _, _ => rfl
  | x :: ws, n, w, i, hi, hge => by
    rw [List.length_cons] at hge
    rw [writeWords, writeWords_getElem_of_ge ws _ hi (by omega), Vector.getElem_setIfInBounds_ne hi (by omega)]

theorem take_writeWords (ws : List Word) (w : Vector Word 80) (hlen : ws.length ≤ 80) :
    (writeWords ws 0 w).toList.take ws.length = ws := by
  refine List.ext_getElem (by simpa using hlen) fun i _ hi => ?_
  have hword := writeWords_getElem_add ws (n := 0) w (i := i) (by omega) hi
  simpa using hword

/-- Settles O22: 16 words are written from `W[0]` on, and no other. -/
theorem loadWritesSixteenWords : Obligations.LoadWritesSixteenWords := by
  intro s
  obtain ⟨ws, hws, hlen, hload⟩ := loadSchedule_cases s
  obtain ⟨t, ht, hwords⟩ := loadSchedule_words s
  obtain rfl : { s with sched := writeWords ws 0 s.sched } = t := Except.ok.inj (hload.symm.trans ht)
  have htake := take_writeWords ws s.sched (by omega)
  rw [hlen] at htake
  exact ⟨_, hload, hwords, fun i hi h16 => writeWords_getElem_of_ge ws s.sched hi (by omega), hws.trans (by rw [htake]), rfl⟩

/-! ## The expansion (R114) -/

/-- R114: the recurrence, within one finished schedule. -/
def FollowsRecurrence (w : Vector Word 80) : Prop :=
  ∀ (i : Nat) (h : i < 80), 16 ≤ i → w[i] = rotateLeft1 (w[i - 3] ^^^ w[i - 8] ^^^ w[i - 14] ^^^ w[i - 16])

theorem expandWord_getElem_self (w : Vector Word 80) {i : Nat} (hi : i < 80) : (expandWord w ⟨i, hi⟩)[i] =
    rotateLeft1 (w[i - 3] ^^^ w[i - 8] ^^^ w[i - 14] ^^^ w[i - 16]) := by
  simp [expandWord]

theorem expandWord_getElem_ne (w : Vector Word 80) {t : Fin 80} {i : Nat} (hi : i < 80) (hne : t.val ≠ i) :
    (expandWord w t)[i] = w[i] := by
  simp [expandWord, hne]

/-- The expansion writes the words of its indices only. -/
theorem foldl_expandWord_getElem : ∀ (l : List (Fin 80)) (w : Vector Word 80) {i : Nat} (hi : i < 80),
    (∀ t ∈ l, t.val ≠ i) → (l.foldl expandWord w)[i] = w[i]
  | [], _, _, _, _ => rfl
  | t :: l, w, i, hi, hne => by
    rw [List.foldl_cons, foldl_expandWord_getElem l _ hi fun u hu => hne u (List.mem_cons_of_mem t hu),
      expandWord_getElem_ne w hi (hne t List.mem_cons_self)]

theorem le_of_mem_drop_finRange {m n : Nat} {t : Fin m} (h : t ∈ (List.finRange m).drop n) : n ≤ t.val := by
  obtain ⟨k, hk, rfl⟩ := List.mem_drop_iff_getElem.mp h
  simp

/-- R114: the words below the first index of the expansion are not written. -/
theorem foldl_expandWord_drop_getElem {n : Nat} (w : Vector Word 80) {i : Nat} (hi : i < 80) (hin : i < n) :
    (((List.finRange 80).drop n).foldl expandWord w)[i] = w[i] :=
  foldl_expandWord_getElem _ w hi fun _ ht => (hin.trans_le (le_of_mem_drop_finRange ht)).ne'

theorem expandSchedule_getElem_of_lt (w : Vector Word 80) {i : Nat} (hi : i < 16) :
    (expandSchedule w)[i] = w[i] := by
  rw [expandSchedule, expansionIndices]
  exact foldl_expandWord_drop_getElem w (by omega) hi

/-- The expansion, taken apart at index `i`: the words before it, its own, and the rest. -/
theorem expandSchedule_split (w : Vector Word 80) {i : Nat} (hi : i < 80) (h16 : 16 ≤ i) : ∃ v,
    expandSchedule w = ((List.finRange 80).drop (i + 1)).foldl expandWord (expandWord v ⟨i, hi⟩) := by
  have hsplit : expansionIndices =
      expansionIndices.take (i - 16) ++ ⟨i, hi⟩ :: (List.finRange 80).drop (i + 1) := by
    have hdrop : expansionIndices.drop (i - 16) = ⟨i, hi⟩ :: (List.finRange 80).drop (i + 1) := by
      rw [expansionIndices, List.drop_drop, Nat.add_sub_cancel' h16, List.drop_eq_getElem_cons (by simpa using hi),
        List.getElem_finRange]
      rfl
    rw [← hdrop, List.take_append_drop]
  exact ⟨(expansionIndices.take (i - 16)).foldl expandWord w, by
    rw [expandSchedule, ← List.foldl_cons, ← List.foldl_append, ← hsplit]⟩

/-- R114: word `i` is made from words below it, and no later index writes any of them again. -/
theorem expandSchedule_followsRecurrence (w : Vector Word 80) : FollowsRecurrence (expandSchedule w) := by
  intro i hi h16
  obtain ⟨v, hv⟩ := expandSchedule_split w hi h16
  have hself : (expandSchedule w)[i] = (expandWord v ⟨i, hi⟩)[i] := by
    simp only [hv, foldl_expandWord_drop_getElem _ hi (Nat.lt_succ_self i)]
  have hback : ∀ d : Nat, 0 < d → d ≤ 16 → (expandSchedule w)[i - d] = v[i - d] := fun d hpos hd => by
    simp only [hv, foldl_expandWord_drop_getElem _ (show i - d < 80 by omega) (show i - d < i + 1 by omega)]
    exact expandWord_getElem_ne v (by omega) (show i ≠ i - d by omega)
  rw [hself, expandWord_getElem_self, hback 3 (by decide) (by decide), hback 8 (by decide) (by decide),
    hback 14 (by decide) (by decide), hback 16 (by decide) (by decide)]

/-- Settles O23: `expandSchedule_getElem_of_lt` and `expandSchedule_followsRecurrence`. -/
theorem scheduleRecurrence : Obligations.ScheduleRecurrence := fun s =>
  ⟨fun _ hi => expandSchedule_getElem_of_lt s.sched hi, expandSchedule_followsRecurrence s.sched, rfl⟩

/-! ## The rounds (R118) -/

/-- The first `n + 1` indices are the first `n` and then `n`. -/
theorem foldl_take_finRange_succ {α : Type} {m n : Nat} (hn : n < m) (f : α → Fin m → α) (a : α) :
    ((List.finRange m).take (n + 1)).foldl f a = f (((List.finRange m).take n).foldl f a) ⟨n, hn⟩ := by
  rw [List.take_add_one, List.foldl_append, List.getElem?_eq_getElem (by simpa using hn), List.getElem_finRange]
  rfl

theorem take_finRange_self (m : Nat) : (List.finRange m).take m = List.finRange m :=
  List.take_of_length_le (by simp)

/-- R118: `A..E` before round `n`. -/
def roundTrace (w : Vector Word 80) (r : Working) (n : Nat) : Working :=
  ((List.finRange 80).take n).foldl (fun before t => roundUpdate t w[t.val] before) r

@[simp] theorem roundTrace_zero (w : Vector Word 80) (r : Working) : roundTrace w r 0 = r := rfl

theorem roundTrace_succ (w : Vector Word 80) (r : Working) {n : Nat} (hn : n < 80) :
    roundTrace w r (n + 1) = roundUpdate ⟨n, hn⟩ w[n] (roundTrace w r n) :=
  foldl_take_finRange_succ hn _ r

theorem zip_finRange_toList {α : Type} {m : Nat} (w : Vector α m) :
    (List.finRange m).zip w.toList = (List.finRange m).map fun t => (t, w[t.val]) :=
  List.ext_getElem (by simp) fun _ _ _ => by simp

/-- R118: `A..E` after the last round. -/
theorem runRounds_eq_roundTrace (w : Vector Word 80) (r : Working) : runRounds w r = roundTrace w r 80 := by
  rw [runRounds, roundTrace, zip_finRange_toList, List.foldl_map, take_finRange_self]

/-- Settles O27: the trace is `roundTrace`. -/
theorem roundsRunInAscendingOrder : Obligations.RoundsRunInAscendingOrder := fun s =>
  ⟨roundTrace s.sched s.work, rfl, fun _ ht => roundTrace_succ s.sched s.work ht, by
    rw [← runRounds_eq_roundTrace]; rfl⟩

/-! ## A block as a function of `H` and 64 bytes (R112, R119, R122) -/

/-- R112: the working registers a block starts from. -/
def Hash.working (h : Hash) : Working := ⟨h.h0, h.h1, h.h2, h.h3, h.h4⟩

/-- R113, R114: the whole schedule of a block, over a `W` of zeros. -/
def blockSchedule (blk : Vector Byte 64) : Vector Word 80 :=
  expandSchedule (Vector.ofFn fun i => if h : i.val < 16 then (blockWindow blk)[i.val] else 0)

theorem blockSchedule_getElem_of_lt (blk : Vector Byte 64) {i : Nat} (hi : i < 16) :
    (blockSchedule blk)[i] = (blockWindow blk)[i] := by
  rw [blockSchedule, expandSchedule_getElem_of_lt _ hi]
  simp [hi]

/-- R122: whatever `W` held before the load, the expansion makes the block's schedule. -/
theorem expandSchedule_of_loadSchedule {s u : State} (h : loadSchedule s = .ok u) :
    expandSchedule u.sched = blockSchedule s.blk := by
  obtain ⟨t, ht, hwords⟩ := loadSchedule_words s
  obtain rfl : t = u := Except.ok.inj (ht.symm.trans h)
  refine expandSchedule_eq_of_agreeBelow fun i hi h16 => ?_
  rw [hwords i h16]
  simp [h16, blockWindow]

/-- R112, R119: the block procedure from its load step on. -/
theorem compressBlock_eq (s : State) :
    ∃ u, loadSchedule (seed s) = .ok u ∧ u = { seed s with sched := u.sched } ∧
      compressBlock s = .ok (foldBack (rounds (expand u))) := by
  obtain ⟨ws, -, -, hload⟩ := loadSchedule_cases (seed s)
  exact ⟨_, hload, rfl, by rw [compressBlock, hload]⟩

/-- Settles O28: the load step changes `W` only, so the seed is still in `A..E` when the rounds begin. -/
theorem blockFoldsWorkingRegistersIntoH : Obligations.BlockFoldsWorkingRegistersIntoH := by
  intro s
  obtain ⟨u, hload, hu, hblock⟩ := compressBlock_eq s
  rw [hu] at hload hblock
  exact ⟨_, _, hload, hblock, rfl, rfl, rfl, rfl, rfl, rfl, rfl, rfl, rfl, rfl, ⟨rfl, rfl⟩, rfl⟩

/-- R122: what a block leaves in `W`, `A..E` and `H`, as functions of the `H` and `BLK` before it. -/
theorem compressBlock_values (s : State) : ∃ t, compressBlock s = .ok t ∧ t.sched = blockSchedule s.blk ∧
    t.work = runRounds (blockSchedule s.blk) s.hash.working ∧
    t.hash = addWorking s.hash (runRounds (blockSchedule s.blk) s.hash.working) := by
  obtain ⟨u, hload, hu, hblock⟩ := compressBlock_eq s
  have hsched : expandSchedule u.sched = blockSchedule s.blk :=
    expandSchedule_of_loadSchedule (s := seed s) hload
  rw [hu] at hblock
  exact ⟨_, hblock, by simp [hsched, Hash.working]⟩

/-- Settles O29: `compressBlock_values` names `H` and `BLK` alone. -/
theorem blockDependsOnHashAndBytesAlone : Obligations.BlockDependsOnHashAndBytesAlone := by
  intro s s' hhash hblk
  obtain ⟨t, ht, hsched, hwork, hH⟩ := compressBlock_values s
  obtain ⟨t', ht', hsched', hwork', hH'⟩ := compressBlock_values s'
  exact ⟨t, t', ht, ht', by rw [hH, hH', hhash, hblk], by rw [hwork, hwork', hhash, hblk], by rw [hsched, hsched', hblk]⟩

/-! ## The 16-word circular schedule (R114) -/

theorem slide_getElem_of_lt (v : Vector Word 16) (x : Word) {i : Nat} (hi : i + 1 < 16) : (slide v x)[i] = v[i + 1] := by
  simp [slide, hi]

@[simp] theorem slide_getElem_last (v : Vector Word 16) (x : Word) : (slide v x)[15] = x := by
  simp [slide]

/-- Before round `n` the lane has the engine's `A..E`, and its window holds the schedule from `W[n]` on, as far as it goes. -/
structure LaneFollows (w : Vector Word 80) (r : Working) (n : Nat) (l : Lane) : Prop where
  work : l.work = roundTrace w r n
  window : ∀ (i : Nat) (hi : i < 16) (h : n + i < 80), l.window[i] = w[n + i]

/-- The word made while round `n` runs is `W[n + 16]`. -/
theorem LaneFollows.newWord {w : Vector Word 80} {r : Working} {n : Nat} {l : Lane} (h : LaneFollows w r n l)
    (hw : FollowsRecurrence w) (hn : n + 16 < 80) :
    rotateLeft1 (l.window[13] ^^^ l.window[8] ^^^ l.window[2] ^^^ l.window[0]) = w[n + 16] := by
  rw [hw (n + 16) hn (by omega), h.window 13 _ (by omega), h.window 8 _ (by omega), h.window 2 _ (by omega),
    h.window 0 _ (by omega)]
  rfl

theorem LaneFollows.step {w : Vector Word 80} {r : Working} {n : Nat} {l : Lane} (h : LaneFollows w r n l)
    (hw : FollowsRecurrence w) (hn : n < 80) : LaneFollows w r (n + 1) (laneStep l ⟨n, hn⟩) where
  work := by
    rw [roundTrace_succ w r hn, ← h.work]
    exact congrArg (roundUpdate ⟨n, hn⟩ · l.work) (h.window 0 (by decide) hn)
  window i hi hlt := by
    rcases Nat.lt_or_ge (i + 1) 16 with hold | hnew
    · rw [laneStep, slide_getElem_of_lt _ _ hold, h.window (i + 1) hold (by omega)]
      simp only [Nat.add_assoc, Nat.add_comm 1 i]
    · obtain rfl : i = 15 := by omega
      rw [laneStep, slide_getElem_last, h.newWord hw (by omega)]

/-- The lane follows the engine through all the rounds. -/
theorem LaneFollows.runLane_work {w : Vector Word 80} {r : Working} {l : Lane} (h : LaneFollows w r 0 l)
    (hw : FollowsRecurrence w) : (runLane l).work = runRounds w r := by
  have hfollows : ∀ n ≤ 80, LaneFollows w r n (((List.finRange 80).take n).foldl laneStep l) := by
    intro n
    induction n with
    | zero => exact fun _ => h
    | succ n ih =>
      intro hn
      rw [foldl_take_finRange_succ (by omega)]
      exact (ih (by omega)).step hw (by omega)
  rw [runLane, ← take_finRange_self, (hfollows 80 le_rfl).work, runRounds_eq_roundTrace]

/-- R114, R122: the engine over the whole schedule is the engine over 16 words. -/
theorem blockFunction_eq (h : Hash) (blk : Vector Byte 64) :
    blockFunction h blk = addWorking h (runRounds (blockSchedule blk) h.working) := by
  have hstart : LaneFollows (blockSchedule blk) h.working 0 ⟨blockWindow blk, h.working⟩ :=
    ⟨rfl, fun i hi _ => by simp only [Nat.zero_add, blockSchedule_getElem_of_lt blk hi]⟩
  exact congrArg (addWorking h) (hstart.runLane_work (expandSchedule_followsRecurrence _))

theorem compressBlock_hash (s : State) : ∃ t, compressBlock s = .ok t ∧ t.hash = blockFunction s.hash s.blk := by
  obtain ⟨t, ht, -, -, hhash⟩ := compressBlock_values s
  exact ⟨t, ht, hhash.trans (blockFunction_eq s.hash s.blk).symm⟩

/-- Settles O30: `compressBlock_hash`. -/
theorem blockRefinesSixteenWordSchedule : Obligations.BlockRefinesSixteenWordSchedule := compressBlock_hash

/-! ## The chain of blocks (R110, R111) -/

/-- R111: any list of blocks of a buffer, each from the `H` the one before left. -/
theorem blocks_hash (p : List Byte) : ∀ (l : List (Fin (p.length / 64))) {s t : State},
    l.foldlM (fun s k => compressBlock (fetchBlock p s k)) s = .ok t →
      t.hash = (l.map fun (k : Fin (p.length / 64)) => blockAt p k k.isLt).foldl blockFunction s.hash
  | [], s, t, h => congrArg State.hash (Except.ok.inj h).symm
  | k :: l, s, t, h => by
    obtain ⟨u, hu, hhash⟩ := compressBlock_hash (fetchBlock p s k)
    rw [List.foldlM_cons, hu, ok_bind] at h
    rw [blocks_hash p l h, hhash, List.map_cons, List.foldl_cons, fetchBlock_hash, fetchBlock_blk]

/-- R110, R111: `compress` chains `H` through the blocks and keeps the session's registers. -/
theorem compress_chain (p : List Byte) (s : State) :
    ∃ t, compress p s = .ok t ∧ t.hash = chain s.hash p ∧ KeepsSession s t := by
  obtain ⟨t, ht, hkeeps⟩ := compress_keeps p s
  exact ⟨t, ht, blocks_hash p _ ht, hkeeps⟩

@[simp] theorem blocksOf_length (p : List Byte) : (blocksOf p).length = p.length / 64 := by
  simp [blocksOf]

@[simp] theorem blocksOf_getElem (p : List Byte) {k : Nat} (hk : k < (blocksOf p).length) :
    (blocksOf p)[k] = blockAt p k (by simpa using hk) := by
  simp [blocksOf]

theorem blockAt_append_left {p : List Byte} (q : List Byte) {k : Nat} (hk : k < p.length / 64)
    (hk' : k < (p ++ q).length / 64) : blockAt (p ++ q) k hk' = blockAt p k hk := by
  refine Vector.ext fun i hi => ?_
  rw [blockAt_getElem _ hk' hi, blockAt_getElem _ hk hi, List.getElem_append_left]

theorem blockAt_append_right {p : List Byte} (q : List Byte) {k : Nat} (hp : p.length % 64 = 0) (hk : k < q.length / 64)
    (hk' : p.length / 64 + k < (p ++ q).length / 64) : blockAt (p ++ q) (p.length / 64 + k) hk' = blockAt q k hk := by
  refine Vector.ext fun i hi => ?_
  rw [blockAt_getElem _ hk' hi, blockAt_getElem _ hk hi, List.getElem_append_right (by omega)]
  simp only [show 64 * (p.length / 64 + k) + i - p.length = 64 * k + i by omega]

/-- R111: whole blocks keep their places when a buffer grows, and the blocks after them begin where they end. -/
theorem blocksOf_append {p : List Byte} (hp : p.length % 64 = 0) (q : List Byte) :
    blocksOf (p ++ q) = blocksOf p ++ blocksOf q := by
  refine List.ext_getElem (by simp; omega) fun k hk hk' => ?_
  rcases Nat.lt_or_ge k (p.length / 64) with hleft | hright
  · rw [blocksOf_getElem, List.getElem_append_left (by simpa using hleft), blocksOf_getElem, blockAt_append_left q hleft]
  · obtain ⟨j, rfl⟩ := Nat.exists_eq_add_of_le hright
    rw [blocksOf_getElem, List.getElem_append_right (by simp), blocksOf_getElem]
    simp only [blocksOf_length, Nat.add_sub_cancel_left]
    exact blockAt_append_right q hp _ _

theorem chain_append {p : List Byte} (hp : p.length % 64 = 0) (q : List Byte) (h : Hash) :
    chain h (p ++ q) = chain (chain h p) q := by
  rw [chain, blocksOf_append hp, List.foldl_append]
  rfl

/-- Settles O31: `compress_chain`; the split is `chain_append`. -/
theorem compressChainsBlocksInOrder : Obligations.CompressChainsBlocksInOrder := by
  refine ⟨fun p s => ?_, fun s => rfl, fun p q s hp => ?_⟩
  · obtain ⟨t, ht, hhash, hkeeps⟩ := compress_chain p s
    exact ⟨t, ht, hhash, hkeeps.len, hkeeps.fin, ⟨hkeeps.host, hkeeps.draws⟩, hkeeps.responses⟩
  · obtain ⟨t, ht, hthash, hfirst⟩ := compress_chain p s
    obtain ⟨u, hu, huhash, hsecond⟩ := compress_chain q t
    obtain ⟨v, hv, hvhash, hvkeeps⟩ := compress_chain (p ++ q) s
    have hukeeps : KeepsSession s u := hfirst.trans hsecond
    refine ⟨t, u, v, ht, hu, hv, ?_, hvkeeps.len.trans hukeeps.len.symm, hvkeeps.fin.trans hukeeps.fin.symm⟩
    rw [hvhash, chain_append hp, huhash, hthash]

end Sys2Proof.Machine
end

section
/-! SUPPORT and PROOFS of the command family (R131 to R137): padding after whole blocks, the registers and the record each
command leaves, the phases, and the two refinements of the session, from which the whole-message results follow. -/

namespace Sys2Proof.Machine

/-! ## Padding after whole blocks (R104, R137) -/

/-- Settles O21: in the closed form the number of zeros depends on the length modulo 64 only. -/
theorem paddingLeavesWholeBlocksAlone : Obligations.PaddingLeavesWholeBlocksAlone := by
  intro whole rest total hwhole
  have hzeros : (55 + 64 * (whole ++ rest).length - (whole ++ rest).length) % 64 =
      (55 + 64 * rest.length - rest.length) % 64 := by
    rw [List.length_append]
    omega
  rw [pad_eq, pad_eq, hzeros]
  simp only [List.append_assoc]

/-- R137: the padded end of a message, chained after its whole blocks, gives the digest of the message. -/
theorem chain_pad_eq_digestOf {whole : List Byte} (hwhole : whole.length % 64 = 0) (rest : List Byte) :
    chain (chain iv whole) (pad rest (bitCount (whole ++ rest))) = digestOf (whole ++ rest) := by
  rw [digestOf, paddingLeavesWholeBlocksAlone whole rest _ hwhole, chain_append hwhole]

/-! ## What each command leaves (R131 to R134, R156) -/

/-- From `s` a command answered `t`: the three registers it left, and its one record. -/
structure Answers (s : State) (hash : Hash) (len : BitCount) (fin : Bool) (r : Response) (t : State) : Prop where
  hash_eq : t.hash = hash
  len_eq : t.len = len
  fin_eq : t.fin = fin
  responses_eq : t.responses = s.responses ++ [r]
  environment : SameEnvironment s t

theorem Answers.answeredWith {s t : State} {hash : Hash} {len : BitCount} {fin : Bool} {r : Response}
    (h : Answers s hash len fin r t) : AnsweredWith r.status s t :=
  ⟨r, h.responses_eq, rfl⟩

/-- R132: the blocks of `p` folded into `H` and its bits counted. -/
abbrev Absorbs (p : List Byte) (s t : State) : Prop :=
  Answers s (chain s.hash p) (s.len + bitCount p) false (plainResponse .ok) t

/-- R133: the bits of `p` counted, then the blocks of `p`, padded with the new `LEN`, folded into `H`, and `FIN` set. -/
abbrev Finalizes (p : List Byte) (r : Response) (s t : State) : Prop :=
  Answers s (chain s.hash (pad p (s.len + bitCount p))) (s.len + bitCount p) true r t

theorem add_bitCount_nil (n : BitCount) : n + bitCount [] = n := BitVec.add_zero n

theorem compress_hash {p : List Byte} {s t : State} (h : compress p s = .ok t) : t.hash = chain s.hash p :=
  blocks_hash p _ h

theorem absorb_absorbs (p : List Byte) {s : State} (hfin : s.fin = false) (hp : p.length % 64 = 0) :
    ∃ t, exec (.absorb p) s = .next t ∧ Absorbs p s t := by
  obtain ⟨t, ht, hkeeps, hexec⟩ := execAbsorb_accepted p s hfin hp
  have hhash := compress_hash ht
  exact ⟨_, hexec, hhash, hkeeps.len, hkeeps.fin.trans hfin, congrArg (· ++ _) hkeeps.responses,
    hkeeps.host, hkeeps.draws⟩

/-- R133, R134: what `FINAL` and the `READ` of an open session share, whatever the record that ends them. -/
theorem finalizeWith_finalizes (p : List Byte) (s : State) :
    ∃ t, finalizeWith p s = .ok t ∧ ∀ r, Finalizes p r s (respond r t) := by
  obtain ⟨t, ht, hkeeps, hfinalize⟩ := finalizeWith_cases p s
  have hhash := compress_hash ht
  exact ⟨_, hfinalize, fun r => ⟨hhash, hkeeps.len, rfl, congrArg (· ++ [r]) hkeeps.responses,
    hkeeps.host, hkeeps.draws⟩⟩

theorem final_finalizes (p : List Byte) {s : State} (hfin : s.fin = false) :
    ∃ t, exec (.final p) s = .next t ∧ Finalizes p (plainResponse .ok) s t := by
  obtain ⟨t, ht, hvalues⟩ := finalizeWith_finalizes p s
  exact ⟨_, by rw [exec, execFinal, if_neg (by simp [hfin]), ht, conclude], hvalues _⟩

theorem read_finalizes {s : State} (hfin : s.fin = false) :
    ∃ t, exec .read s = .next t ∧ Finalizes [] (digestResponse t.hash) s t := by
  obtain ⟨t, ht, hvalues⟩ := finalizeWith_finalizes [] s
  exact ⟨_, by rw [exec, execRead, if_neg (by simp [hfin]), ht, conclude], hvalues _⟩

/-- R134, in every state: the session is finalized, and the record is the digest in `H`. -/
theorem read_answers (s : State) :
    ∃ t, exec .read s = .next t ∧ t.responses = s.responses ++ [digestResponse t.hash] ∧ t.fin = true := by
  obtain ⟨t, ht, hends⟩ := exec_ends .read s
  obtain ⟨r, hr, hread, -⟩ := hends.responds
  exact ⟨t, ht, hread rfl ▸ hr, hends.closed_of_read_or_final (.inl rfl)⟩

/-- R156: a rejection returns the status alone and leaves every register. -/
theorem reject_answers (e : Status) (s : State) : AnsweredWith e s (reject e s) ∧ SameRegisters s (reject e s) :=
  ⟨⟨plainResponse e, rfl, rfl⟩, rfl, rfl, rfl⟩

/-- R132: an `ABSORB` of no bytes only answers. -/
theorem absorb_nil {s : State} (hfin : s.fin = false) :
    exec (.absorb []) s = .next (respond (plainResponse .ok) s) := by
  have hlen : addLength [] s = s := by rw [addLength, add_bitCount_nil]
  obtain ⟨t, ht, -, hexec⟩ := execAbsorb_accepted [] s hfin rfl
  obtain rfl : s = t := by rw [hlen] at ht; exact Except.ok.inj ht
  exact hexec

/-! ## Commands one after the other (R62) -/

theorem execAll_cons {i : Instr} {s t : State} (h : exec i s = .next t) (is : List Instr) :
    execAll (i :: is) s = execAll is t := by
  rw [execAll, h]

theorem execAll_singleton {i : Instr} {s t : State} (h : exec i s = .next t) : execAll [i] s = .next t := by
  rw [execAll_cons h, execAll]

theorem execAll_append {is : List Instr} {s t : State} (h : execAll is s = .next t) (js : List Instr) :
    execAll (is ++ js) s = execAll js t := by
  induction is generalizing s with
  | nil =>
    obtain rfl : s = t := Host.Outcome.next.inj h
    rfl
  | cons i is ih =>
    obtain ⟨u, hu, -⟩ := exec_ends i s
    rw [execAll_cons hu] at h
    rw [List.cons_append, execAll_cons hu, ih h]

/-! ## The commands one by one (R131 to R134) -/

/-- Settles O32: by definition of `startSession` and `respond`. -/
theorem initStartsAFreshSession : Obligations.InitStartsAFreshSession := fun _ => rfl

/-- Settles O33: the two rejections, `absorb_absorbs`, `absorb_nil`, and `chain_append` for two chunks in one command. -/
theorem absorbFoldsWholeBlocks : Obligations.AbsorbFoldsWholeBlocks := by
  refine ⟨fun p s hrejected => ?rejected, fun p s hfin hp => ?accepted, fun s hfin => absorb_nil hfin,
    fun p q s hfin hp hq => ?split⟩
  case rejected =>
    cases hfin : s.fin with
    | true => exact ⟨_, execAbsorb_closed p s hfin, reject_answers .sessionClosed s⟩
    | false =>
      have hp : p.length % 64 ≠ 0 := hrejected.resolve_left (by simp [hfin])
      exact ⟨_, execAbsorb_unaligned p s hfin hp, reject_answers _ s⟩
  case accepted =>
    obtain ⟨t, ht, h⟩ := absorb_absorbs p hfin hp
    exact ⟨t, ht, h.hash_eq, bitCount_eq_ofNat p ▸ h.len_eq, h.fin_eq, h.responses_eq, h.environment⟩
  case split =>
    obtain ⟨t, ht, hfirst⟩ := absorb_absorbs p hfin hp
    obtain ⟨u, hu, hsecond⟩ := absorb_absorbs q hfirst.fin_eq hq
    obtain ⟨v, hv, hwhole⟩ := absorb_absorbs (p ++ q) hfin (by rw [List.length_append]; omega)
    refine ⟨u, v, by rw [execAll_cons ht, execAll_singleton hu], hv, ?_, ?_, hwhole.fin_eq.trans hsecond.fin_eq.symm⟩
    · rw [hwhole.hash_eq, hsecond.hash_eq, hfirst.hash_eq, chain_append hp]
    · rw [hwhole.len_eq, hsecond.len_eq, hfirst.len_eq, bitCount_append, BitVec.add_assoc]

/-- Settles O35: the rejection, and `final_finalizes`; the number of blocks is that of `pad_length`. -/
theorem finalPadsAndFinalizes : Obligations.FinalPadsAndFinalizes := by
  refine fun p s => ⟨fun hfin => ⟨_, execFinal_closed p s hfin, reject_answers _ s⟩, fun hfin => ?_⟩
  obtain ⟨t, ht, h⟩ := final_finalizes p hfin
  have hblocks : (pad p t.len).length / 64 = (p.length + 8) / 64 + 1 := by
    rw [pad_length, Nat.mul_div_cancel_left _ (by decide)]
  exact ⟨t, ht, bitCount_eq_ofNat p ▸ h.len_eq, h.len_eq ▸ h.hash_eq, hblocks, h.fin_eq, h.responses_eq, h.environment⟩

/-- Settles O37: `read_finalizes` and `final_finalizes` of no bytes leave the same registers, and `READ` then reads `H`. -/
theorem readReturnsTheDigest : Obligations.ReadReturnsTheDigest := by
  refine ⟨fun s hfin => execRead_closed s hfin, fun s hfin => ?_⟩
  obtain ⟨t, ht, hread⟩ := read_finalizes hfin
  obtain ⟨u, hu, hfinal⟩ := final_finalizes [] hfin
  have hhash : u.hash = t.hash := hfinal.hash_eq.trans hread.hash_eq.symm
  have hlen := add_bitCount_nil s.len
  refine ⟨t, ht, hread.len_eq.trans hlen, hlen ▸ hread.hash_eq, pad_length [] s.len, hread.fin_eq, hread.environment,
    hread.responses_eq, u, _, hu, execRead_closed u hfinal.fin_eq, ?_, ?_⟩
  · exact ⟨hhash.symm, hread.len_eq.trans hfinal.len_eq.symm, hread.fin_eq.trans hfinal.fin_eq.symm⟩
  · rw [respond_responses, hhash]

/-- Settles O38: the first `READ` leaves the session finalized, where `READ` only answers. -/
theorem readIsIdempotent : Obligations.ReadIsIdempotent := by
  intro s
  obtain ⟨t, ht, hresponses, hfin⟩ := read_answers s
  exact ⟨t, _, ht, hresponses, rfl, execRead_closed t hfin⟩

/-! ## The phases (R29, R136) -/

theorem phase_eq_finalized_iff {s : State} : s.phase = .finalized ↔ s.fin = true := by
  rw [State.phase]
  split_ifs with hfin hfresh <;> simp [hfin]

theorem phase_ne_finalized_iff {s : State} : s.phase ≠ .finalized ↔ s.fin = false := by
  rw [Ne, phase_eq_finalized_iff, Bool.not_eq_true]

theorem phase_eq_absorbing {s : State} (hfin : s.fin = false) (hlen : s.len ≠ 0) : s.phase = .absorbing := by
  rw [State.phase, if_neg (by simp [hfin]), if_neg fun hfresh => hlen hfresh.2]

/-- R136 (log 8): while `LEN` does not wrap, some bytes make it other than 0. -/
theorem add_bitCount_ne_zero {n : BitCount} {p : List Byte} (hp : p ≠ []) (hwrap : n.toNat + 8 * p.length < 2 ^ 64) :
    n + bitCount p ≠ 0 := by
  have hpos : 0 < p.length := List.length_pos_of_ne_nil hp
  have hsum : (n + bitCount p).toNat = n.toNat + 8 * p.length := by
    rw [BitVec.toNat_add, bitCount_eq_ofNat, BitVec.toNat_ofNat, Nat.add_mod_mod, Nat.mod_eq_of_lt hwrap]
  intro hzero
  rw [hzero, BitVec.ofNat_eq_ofNat, BitVec.toNat_ofNat, Nat.zero_mod] at hsum
  omega

/-- Settles O46: row by row, from what each command leaves; the phase is read from `FIN`, and from `LEN` while open. -/
theorem sessionTransitionTable : Obligations.SessionTransitionTable := by
  refine fun s => ⟨?init, ?read, fun p hopen => ?final, fun p hopen hp => ?absorb, fun p hopen hp => ?unaligned,
    fun p hclosed => ?closed, fun tx e hdecode => ?reserved⟩
  case init => exact ⟨_, rfl, ⟨plainResponse .ok, rfl, rfl⟩, rfl⟩
  case read =>
    obtain ⟨t, ht, hends⟩ := exec_ends .read s
    obtain ⟨r, hr, hread, -⟩ := hends.responds
    exact ⟨t, ht, ⟨r, hr, hread rfl ▸ rfl⟩, phase_eq_finalized_iff.mpr (hends.closed_of_read_or_final (.inl rfl)),
      fun hclosed => hends.keeps_registers_of_closed (phase_eq_finalized_iff.mp hclosed) nofun⟩
  case final =>
    obtain ⟨t, ht, h⟩ := final_finalizes p (phase_ne_finalized_iff.mp hopen)
    exact ⟨t, ht, h.answeredWith, phase_eq_finalized_iff.mpr h.fin_eq⟩
  case absorb =>
    have hfin := phase_ne_finalized_iff.mp hopen
    obtain ⟨t, ht, h⟩ := absorb_absorbs p hfin hp
    refine ⟨t, ht, h.answeredWith, phase_ne_finalized_iff.mpr h.fin_eq, ?_, fun hne hwrap => ?_⟩
    · rintro rfl
      exact ⟨h.hash_eq.trans (chain_nil _), h.len_eq.trans (add_bitCount_nil _), h.fin_eq.trans hfin.symm⟩
    · exact phase_eq_absorbing h.fin_eq (h.len_eq ▸ add_bitCount_ne_zero hne hwrap)
  case unaligned => exact ⟨_, execAbsorb_unaligned p s (phase_ne_finalized_iff.mp hopen) hp, reject_answers _ s⟩
  case closed =>
    have hfin := phase_eq_finalized_iff.mp hclosed
    exact ⟨⟨_, execAbsorb_closed p s hfin, reject_answers _ s⟩, _, execFinal_closed p s hfin, reject_answers _ s⟩
  case reserved => exact ⟨_, execTransaction_of_decode_error hdecode s, reject_answers _ s⟩

/-! ## The refinement of the session (R136 to R138) -/

theorem Represents.fin_eq {a : Session} {s : State} (h : Represents a s) : s.fin = a.closed := h.1

theorem Represents.absorb {m p : List Byte} {s t : State} (h : Represents ⟨m, false⟩ s) (hp : p.length % 64 = 0)
    (habsorb : Absorbs p s t) : Represents ⟨m ++ p, false⟩ t := by
  obtain ⟨-, hlen, -, hmessage⟩ := h
  obtain ⟨hhash, haligned : m.length % 64 = 0⟩ := hmessage rfl
  refine ⟨habsorb.fin_eq, ?_, nofun, fun _ => ⟨?_, ?_⟩⟩
  · rw [habsorb.len_eq, hlen, bitCount_append]
  · rw [habsorb.hash_eq, hhash, chain_append haligned]
  · rw [List.length_append]
    omega

theorem Represents.finalize {m p : List Byte} {r : Response} {s t : State} (h : Represents ⟨m, false⟩ s)
    (hfinalize : Finalizes p r s t) : Represents ⟨m ++ p, true⟩ t := by
  obtain ⟨-, hlen, -, hmessage⟩ := h
  obtain ⟨hhash, haligned⟩ := hmessage rfl
  have htotal : s.len + bitCount p = bitCount (m ++ p) := by rw [hlen, bitCount_append]
  refine ⟨hfinalize.fin_eq, hfinalize.len_eq.trans htotal, fun _ => ?_, nofun⟩
  rw [hfinalize.hash_eq, htotal, hhash, chain_pad_eq_digestOf haligned]

/-- The command `i` does to the registers in `s` what it does to the session `a`, and answers as the session does. -/
def Refines (a : Session) (i : Instr) (s : State) : Prop :=
  ∃ t, exec i s = .next t ∧ Represents (a.after i).1 t ∧ t.responses = s.responses ++ [(a.after i).2] ∧ SameEnvironment s t

theorem refines_init (a : Session) (s : State) : Refines a .init s :=
  ⟨_, rfl, represents_empty rfl rfl rfl, rfl, rfl, rfl⟩

/-- A rejected command refines a session that does not move. -/
theorem refines_of_reject {a : Session} {i : Instr} {s : State} {e : Status} (h : Represents a s)
    (hexec : exec i s = .next (reject e s)) (hafter : a.after i = (a, plainResponse e)) : Refines a i s := by
  refine ⟨_, hexec, ?_, ?_, rfl, rfl⟩ <;> rw [hafter]
  · exact h
  · rfl

theorem after_absorb (m : List Byte) {p : List Byte} (hp : p.length % 64 = 0) :
    (⟨m, false⟩ : Session).after (.absorb p) = (⟨m ++ p, false⟩, plainResponse .ok) := by
  simp [Session.after, hp]

theorem refines_absorb {a : Session} {s : State} (h : Represents a s) (p : List Byte) : Refines a (.absorb p) s := by
  obtain ⟨m, closed⟩ := a
  have hfin := h.fin_eq
  cases closed with
  | true => exact refines_of_reject h (execAbsorb_closed p s hfin) rfl
  | false =>
    by_cases hp : p.length % 64 = 0
    · obtain ⟨t, ht, habsorb⟩ := absorb_absorbs p hfin hp
      refine ⟨t, ht, ?_, ?_, habsorb.environment⟩ <;> rw [after_absorb m hp]
      · exact h.absorb hp habsorb
      · exact habsorb.responses_eq
    · exact refines_of_reject h (execAbsorb_unaligned p s hfin hp) (by simp [Session.after, hp])

theorem refines_final {a : Session} {s : State} (h : Represents a s) (p : List Byte) : Refines a (.final p) s := by
  obtain ⟨m, closed⟩ := a
  have hfin := h.fin_eq
  cases closed with
  | true => exact refines_of_reject h (execFinal_closed p s hfin) rfl
  | false =>
    obtain ⟨t, ht, hfinalize⟩ := final_finalizes p hfin
    exact ⟨t, ht, h.finalize hfinalize, hfinalize.responses_eq, hfinalize.environment⟩

theorem Represents.hash_of_closed {m : List Byte} {s : State} (h : Represents ⟨m, true⟩ s) : s.hash = digestOf m := by
  obtain ⟨-, -, hdigest, -⟩ := h
  exact hdigest rfl

theorem refines_read {a : Session} {s : State} (h : Represents a s) : Refines a .read s := by
  obtain ⟨m, closed⟩ := a
  have hfin := h.fin_eq
  cases closed with
  | true =>
    refine ⟨_, execRead_closed s hfin, h, ?_, rfl, rfl⟩
    rw [h.hash_of_closed]
    rfl
  | false =>
    obtain ⟨t, ht, hread⟩ := read_finalizes hfin
    have hclosed : Represents ⟨m, true⟩ t := List.append_nil m ▸ h.finalize hread
    refine ⟨t, ht, hclosed, ?_, hread.environment⟩
    rw [hread.responses_eq, hclosed.hash_of_closed]
    rfl

/-- Settles O53: command by command. -/
theorem engineRefinesTheSession : Obligations.EngineRefinesTheSession := by
  intro a s i h
  cases i with
  | init => exact refines_init a s
  | absorb p => exact refines_absorb h p
  | final p => exact refines_final h p
  | read => exact refines_read h

/-- R6, R71, R170: one step takes one move, and does to the registers what the move does to the session. -/
theorem step_refines {a : Session} {s : State} {m : HostMove} {rest : List HostMove} (h : Represents a s)
    (hhost : s.host = m :: rest) :
    ∃ t, step s = .next t ∧ t.host = rest ∧ Represents (a.afterMove m).1 t ∧
      t.responses = s.responses ++ (a.afterMove m).2 := by
  have htaken : Represents a { s with host := rest } := h
  cases m with
  | command tx =>
    rw [step_command hhost, Session.afterMove]
    cases hdecode : decode tx with
    | ok i =>
      obtain ⟨t, ht, hafter, hresponses, hkept, -⟩ := engineRefinesTheSession a _ i htaken
      exact ⟨t, by rw [execTransaction_of_decode_ok hdecode, ht], hkept, hafter, hresponses⟩
    | error e => exact ⟨_, execTransaction_of_decode_error hdecode _, rfl, h, rfl⟩
  | reset =>
    exact ⟨_, step_resets s _ rest hhost (.inl rfl), rfl, represents_empty rfl rfl rfl, (List.append_nil _).symm⟩
  | resetDuring tx =>
    exact ⟨_, step_resets s _ rest hhost (.inr ⟨tx, rfl⟩), rfl, represents_empty rfl rfl rfl, (List.append_nil _).symm⟩

/-- Settles O54, by induction on the moves of the host: `step_refines` for the next one. -/
theorem everyRunRefinesTheSession : Obligations.EveryRunRefinesTheSession := by
  intro a s h
  generalize hhost : s.host = moves
  induction moves generalizing a s with
  | nil => exact ⟨s, run_zero s, hhost, h, (List.append_nil _).symm⟩
  | cons m rest ih =>
    obtain ⟨t, ht, hrest, hafter, hresponses⟩ := step_refines h hhost
    obtain ⟨u, hu, hdone, hlast, hall⟩ := ih _ t hafter hrest
    refine ⟨u, by rw [List.length_cons, run_succ _ ht, hu], hdone, hlast, ?_⟩
    rw [hall, hresponses, List.append_assoc]
    rfl

/-! ## Whole messages (R135, R137) -/

/-- Settles O51: after `INIT` the registers hold the empty message, and the refinement runs `FINAL` and `READ` on it. -/
theorem hashWholeReturnsTheDigest : Obligations.HashWholeReturnsTheDigest := by
  refine fun p s => ⟨rfl, ?_⟩
  obtain ⟨t, ht, hempty, htresponses, -⟩ := refines_init ⟨[], false⟩ s
  obtain ⟨u, hu, hwhole, huresponses, -⟩ := refines_final hempty p
  obtain ⟨v, hv, hread, hvresponses, -⟩ := refines_read hwhole
  have hhash : v.hash = digestOf p := Represents.hash_of_closed hread
  refine ⟨v, ?_, ?_, ?_, phase_eq_finalized_iff.mpr hread.fin_eq⟩
  · rw [hashWhole, execAll_cons ht, execAll_cons hu, execAll_singleton hv]
  · rw [hhash, digestOf, bitCount_eq_ofNat]
    rfl
  · rw [hvresponses, huresponses, htresponses, hhash, List.append_assoc, List.append_assoc]
    rfl

/-- The session after commands one after the other. -/
def Session.afterAll (a : Session) (is : List Instr) : Session := is.foldl (fun b i => (b.after i).1) a

theorem execAll_refines {a : Session} {s : State} (h : Represents a s) (is : List Instr) :
    ∃ t, execAll is s = .next t ∧ Represents (a.afterAll is) t := by
  induction is generalizing a s with
  | nil => exact ⟨s, rfl, h⟩
  | cons i is ih =>
    obtain ⟨t, ht, hafter, -⟩ := engineRefinesTheSession a s i h
    rw [execAll_cons ht]
    exact ih hafter

/-- R137: a session of any commands, read at its end, returns the digest of the message it took in. -/
theorem execAll_init_read (is : List Instr) (s : State) : ∃ t, execAll (.init :: (is ++ [.read])) s = .next t ∧
    t.responses.getLast? = some (digestResponse (digestOf ((⟨[], false⟩ : Session).afterAll is).message)) := by
  obtain ⟨t, ht, hempty, -⟩ := refines_init ⟨[], false⟩ s
  obtain ⟨u, hu, hall⟩ := execAll_refines hempty is
  obtain ⟨v, hv, -, hresponses, -⟩ := refines_read hall
  refine ⟨v, by rw [execAll_cons ht, execAll_append hu, execAll_singleton hv], ?_⟩
  rw [hresponses, List.getLast?_concat]
  rfl

theorem afterAll_absorbs (m : List Byte) {chunks : List (List Byte)} (h : ∀ c ∈ chunks, c.length % 64 = 0) :
    (⟨m, false⟩ : Session).afterAll (chunks.map .absorb) = ⟨m ++ chunks.flatten, false⟩ := by
  induction chunks generalizing m with
  | nil => rw [List.flatten_nil, List.append_nil]; rfl
  | cons c chunks ih =>
    obtain ⟨hc, hchunks⟩ := List.forall_mem_cons.mp h
    rw [List.map_cons, Session.afterAll, List.foldl_cons, after_absorb m hc, List.flatten_cons, ← List.append_assoc]
    exact ih _ hchunks

/-- Streamed chunks and a last command that takes `last` in make the message of all of them. -/
theorem message_afterAll_stream {chunks : List (List Byte)} (h : ∀ c ∈ chunks, c.length % 64 = 0) {i : Instr}
    {last : List Byte} (hi : ∀ m, ((⟨m, false⟩ : Session).after i).1.message = m ++ last) :
    ((⟨[], false⟩ : Session).afterAll (chunks.map .absorb ++ [i])).message = chunks.flatten ++ last := by
  have habsorbed := afterAll_absorbs [] h
  rw [Session.afterAll] at habsorbed
  rw [Session.afterAll, List.foldl_append, habsorbed, List.foldl_cons, List.foldl_nil, hi, List.nil_append]

/-- R137: a stream in whole blocks, ended by a command that takes `last` in, is answered with the digest of the whole. -/
theorem execAll_stream {chunks : List (List Byte)} (h : ∀ c ∈ chunks, c.length % 64 = 0) {i : Instr} {last : List Byte}
    (hi : ∀ m, ((⟨m, false⟩ : Session).after i).1.message = m ++ last) (s : State) :
    ∃ t, execAll (.init :: (chunks.map .absorb ++ [i, .read])) s = .next t ∧
      t.responses.getLast? = some (digestResponse (digestOf (chunks.flatten ++ last))) := by
  obtain ⟨t, ht, hlast⟩ := execAll_init_read (chunks.map .absorb ++ [i]) s
  rw [List.append_assoc] at ht
  rw [message_afterAll_stream h hi] at hlast
  exact ⟨t, ht, hlast⟩

/-- Settles O52: the three runs are streams of the same bytes; `HASHWHOLE` is the one of no chunks and a last one. -/
theorem streamingEqualsHashingTheWhole : Obligations.StreamingEqualsHashingTheWhole := by
  intro chunks last s h
  obtain ⟨t, ht, htlast⟩ := execAll_stream h (i := .final last) (fun _ => rfl) s
  obtain ⟨u, hu, hulast⟩ := execAll_stream (chunks := []) nofun (i := .final (chunks.flatten ++ last)) (fun _ => rfl) s
  refine ⟨t, u, _, ht, hu, htlast, hulast, rfl, fun haligned => ?_⟩
  exact execAll_stream h (fun m => congrArg (·.1.message) (after_absorb m haligned)) s

end Sys2Proof.Machine
end

section
/-! SUPPORT and PROOFS of the exception family (R150 to R157, R165): what an idle step does, the status each transaction gets,
what a rejection leaves, the responses of a run, and that no response of before is read. -/

namespace Sys2Proof.Machine

/-! ## The idle engine (R165, R171) -/

/-- Settles O7: the first arm of `step`. -/
theorem engineWaitsWhenNothingIsPresented : Obligations.EngineWaitsWhenNothingIsPresented := by
  intro s hidle
  rw [step, hidle]

/-! ## Rejections (R151, R152, R156) -/

/-- R156: the whole effect of an error on what a command may touch outside scratch. -/
theorem reject_keeps (e : Status) (s : State) : SameRegisters s (reject e s) ∧ SameEnvironment s (reject e s) :=
  ⟨⟨rfl, rfl, rfl⟩, rfl, rfl⟩

/-- R152: of any length. -/
theorem exec_ingestion_closed {i : Instr} {p : List Byte} {s : State} (hfin : s.fin = true)
    (hi : i = .absorb p ∨ i = .final p) : exec i s = .next (reject .sessionClosed s) := by
  rcases hi with rfl | rfl
  · exact execAbsorb_closed p s hfin
  · exact execFinal_closed p s hfin

/-- Settles O34: an open session rejects the chunk before its first write. -/
theorem unalignedChunkIsRejectedWhole : Obligations.UnalignedChunkIsRejectedWhole :=
  fun p s hfin hp => ⟨_, execAbsorb_unaligned p s hfin hp, rfl, reject_keeps _ s⟩

/-- Settles O36: the rejection leaves `FIN` and `H`, so a `READ` after it reads the digest of before. -/
theorem closedSessionRejectsIngestion : Obligations.ClosedSessionRejectsIngestion := by
  intro i p s hfin hi
  obtain ⟨hregisters, henvironment⟩ := reject_keeps .sessionClosed s
  exact ⟨_, exec_ingestion_closed hfin hi, rfl, hregisters, henvironment,
    _, execRead_closed (reject .sessionClosed s) hfin, rfl⟩

/-! ## The status of a transaction (R155) -/

/-- R155: the status of a command, from `FIN` and the command alone; the session is checked before the alignment. -/
def commandStatus (fin : Bool) : Instr → Status
  | .init | .read => .ok
  | .absorb p => if fin then .sessionClosed else if p.length % 64 = 0 then .ok else .unalignedChunk
  | .final _ => if fin then .sessionClosed else .ok

/-- R155: the status of a transaction, from `FIN` and what the decoder answers; the decoder is first. -/
def answerStatus (fin : Bool) : Except DecodeError Instr → Status
  | .ok i => commandStatus fin i
  | .error _ => .illegalCommand

/-- From `s` a transaction of this status led to `t`: an error is a rejection and nothing else (R156), `OK` one record. -/
def EndsWithStatus (s : State) (status : Status) (t : State) : Prop :=
  if status = .ok then AnsweredWith .ok s t else t = reject status s

theorem EndsWithStatus.answeredWith {s t : State} {status : Status} (h : EndsWithStatus s status t) :
    AnsweredWith status s t := by
  rw [EndsWithStatus] at h
  split_ifs at h with hok
  · exact hok ▸ h
  · exact h ▸ (reject_answers status s).1

theorem EndsWithStatus.eq_reject {s t : State} {status : Status} (h : EndsWithStatus s status t) (hne : status ≠ .ok) :
    t = reject status s := by
  rwa [EndsWithStatus, if_neg hne] at h

/-- R155, R156, by the ways a command can end. -/
theorem CommandEnds.endsWithStatus {s t : State} {i : Instr} (hends : CommandEnds s i t) :
    EndsWithStatus s (commandStatus s.fin i) t := by
  obtain ⟨r, hr, hread, -⟩ := hends.responds
  cases hends with
  | init => exact ⟨_, rfl, rfl⟩
  | absorbClosed _ hfin | finalClosed _ hfin => simp [commandStatus, hfin, EndsWithStatus]
  | absorbUnaligned _ hfin hp => simp [commandStatus, hfin, hp, EndsWithStatus]
  | absorbAccepted _ _ hfin hp _ hkeeps =>
    simp [commandStatus, hfin, hp, EndsWithStatus, AnsweredWith, hkeeps.responses, plainResponse]
  | finalAccepted _ _ hfin _ hkeeps =>
    simp [commandStatus, hfin, EndsWithStatus, AnsweredWith, hkeeps.responses, plainResponse]
  | readClosed | readOpen => exact ⟨r, hr, hread rfl ▸ rfl⟩

/-- R130: every transaction is answered, with the status of R155. -/
theorem execTransaction_endsWithStatus (tx : Transaction) (s : State) :
    ∃ t, execTransaction tx s = .next t ∧ EndsWithStatus s (answerStatus s.fin (decode tx)) t := by
  cases hdecode : decode tx with
  | ok i =>
    obtain ⟨t, ht, hends⟩ := exec_ends i s
    exact ⟨t, by rw [execTransaction_of_decode_ok hdecode, ht], hends.endsWithStatus⟩
  | error e => exact ⟨_, execTransaction_of_decode_error hdecode s, rfl⟩

/-- Settles O39: the status is that of `answerStatus`; each clause is one of its branches. -/
theorem errorsComeInTheFixedOrder : Obligations.ErrorsComeInTheFixedOrder := by
  intro tx s
  obtain ⟨t, ht, hends⟩ := execTransaction_endsWithStatus tx s
  obtain ⟨r, hr, hstatus⟩ := hends.answeredWith
  refine ⟨t, r, ht, hr, ?_⟩
  rw [hstatus]
  refine ⟨?reserved, ?closed, ?unaligned, ?absorb, ?final, ?others⟩
  case reserved =>
    rintro ⟨e, hdecode⟩
    rw [hdecode, answerStatus]
  case closed =>
    rintro p (hdecode | hdecode) hfin <;> rw [hdecode, answerStatus, commandStatus, if_pos hfin]
  case unaligned =>
    intro p hdecode hfin hp
    rw [hdecode, answerStatus, commandStatus, if_neg (by simp [hfin]), if_neg hp]
  case absorb =>
    intro p hdecode hfin hp
    rw [hdecode, answerStatus, commandStatus, if_neg (by simp [hfin]), if_pos hp]
  case final =>
    intro p hdecode hfin
    rw [hdecode, answerStatus, commandStatus, if_neg (by simp [hfin])]
  case others =>
    rintro (hdecode | hdecode) <;> rw [hdecode, answerStatus, commandStatus]

/-- R156: a transaction whose record carries an error did what `reject` does. -/
theorem eq_reject_of_status_ne_ok {tx : Transaction} {s t : State} {r : Response} (ht : execTransaction tx s = .next t)
    (hr : t.responses = s.responses ++ [r]) (herror : r.status ≠ .ok) :
    t = reject r.status s ∧ r = plainResponse r.status := by
  obtain ⟨u, hu, hends⟩ := execTransaction_endsWithStatus tx s
  obtain rfl : u = t := by rw [hu] at ht; injection ht
  have hlast {q : Response} (hq : u.responses = s.responses ++ [q]) : r = q := by simpa [hr] using hq
  obtain ⟨q, hq, hstatus⟩ := hends.answeredWith
  obtain rfl := hlast hq
  rw [← hstatus] at hends
  have hreject := hends.eq_reject herror
  exact ⟨hreject, hlast (by rw [hreject, reject_responses])⟩

/-- Settles O40: the transaction did what `reject` does. -/
theorem errorsLeaveEveryRegister : Obligations.ErrorsLeaveEveryRegister := by
  intro tx s t r ht hr herror
  obtain ⟨hreject, hplain⟩ := eq_reject_of_status_ne_ok ht hr herror
  obtain ⟨hregisters, henvironment⟩ := reject_keeps r.status s
  rw [hreject, hplain]
  exact ⟨hregisters, henvironment, rfl, rfl⟩

/-! ## Runs (R153) -/

theorem commandStatus_ne_malformed (fin : Bool) (i : Instr) : commandStatus fin i ≠ .malformedWordConversion := by
  cases i with
  | init | read => exact nofun
  | absorb | final =>
    rw [commandStatus]
    split_ifs <;> exact nofun

/-- R79: code 3 is that of `MalformedWordConversion` alone. -/
theorem code_mem_of_ne_malformed {status : Status} (h : status ≠ .malformedWordConversion) :
    status.code ∈ [0, 1, 2, 4] := by
  cases status with
  | malformedWordConversion => exact absurd rfl h
  | ok | unalignedChunk | sessionClosed | illegalCommand => decide

/-- From `s` to `t` at most `n` records were added, none of them `MalformedWordConversion` (R153). -/
def AnsweredWellFormed (n : Nat) (s t : State) : Prop :=
  ∃ rs, t.responses = s.responses ++ rs ∧ rs.length ≤ n ∧ ∀ r ∈ rs, r.status ≠ .malformedWordConversion

theorem answeredWellFormed_of_same {s t : State} (h : t.responses = s.responses) (n : Nat) : AnsweredWellFormed n s t :=
  ⟨[], by rw [h, List.append_nil], Nat.zero_le n, nofun⟩

theorem AnsweredWellFormed.trans {m n : Nat} {s t u : State} (h : AnsweredWellFormed m s t)
    (k : AnsweredWellFormed n t u) : AnsweredWellFormed (m + n) s u := by
  obtain ⟨rs, hrs, hlength, hne⟩ := h
  obtain ⟨qs, hqs, klength, kne⟩ := k
  refine ⟨rs ++ qs, by rw [hqs, hrs, List.append_assoc], ?_, fun r hr => (List.mem_append.mp hr).elim (hne r) (kne r)⟩
  rw [List.length_append]
  exact Nat.add_le_add hlength klength

theorem AnsweredWith.answeredWellFormed {status : Status} {s t : State} (h : AnsweredWith status s t)
    (hne : status ≠ .malformedWordConversion) : AnsweredWellFormed 1 s t := by
  obtain ⟨r, hr, rfl⟩ := h
  exact ⟨[r], hr, le_rfl, List.forall_mem_singleton.mpr hne⟩

/-- R71, R172: a step adds one record when it takes a transaction, and none otherwise. -/
theorem StepEnds.answeredWellFormed {s t : State} (hends : StepEnds s t) : AnsweredWellFormed 1 s t := by
  cases hends with
  | waits | resets => exact answeredWellFormed_of_same rfl 1
  | command tx rest i t _ _ hends =>
    exact AnsweredWith.answeredWellFormed (s := s) hends.endsWithStatus.answeredWith (commandStatus_ne_malformed _ i)
  | illegal => exact AnsweredWith.answeredWellFormed (s := s) (reject_answers .illegalCommand _).1 nofun

theorem run_answeredWellFormed (n : Nat) (s : State) :
    ∃ t, Host.Core.run Sys2Proof.core n s = .next t ∧ AnsweredWellFormed n s t := by
  induction n generalizing s with
  | zero => exact ⟨s, run_zero s, answeredWellFormed_of_same rfl 0⟩
  | succ n ih =>
    obtain ⟨t, ht, hends⟩ := step_ends s
    obtain ⟨u, hu, hrest⟩ := ih t
    exact ⟨u, by rw [run_succ n ht, hu], Nat.add_comm 1 n ▸ hends.answeredWellFormed.trans hrest⟩

/-- Settles O44: `run_answeredWellFormed`, by induction on the number of steps; the codes are those of R79. -/
theorem noRunReachesMalformedWordConversion : Obligations.NoRunReachesMalformedWordConversion := by
  intro n s
  obtain ⟨t, ht, rs, hrs, hlength, hne⟩ := run_answeredWellFormed n s
  exact ⟨t, ht, rs, hrs, hlength, fun r hr => ⟨hne r hr, code_mem_of_ne_malformed (hne r hr)⟩⟩

/-! ## Earlier responses (R157): the datapath neither reads nor writes them, so it commutes with replacing them -/

/-- `s` with other records returned so far. -/
def withEarlier (earlier : List Response) (s : State) : State := { s with responses := earlier }

theorem compressBlock_withEarlier (earlier : List Response) {s t : State} (h : compressBlock s = .ok t) :
    compressBlock (withEarlier earlier s) = .ok (withEarlier earlier t) := by
  obtain ⟨ws, hws, -, hs⟩ := compressBlock_cases s
  obtain ⟨ws', hws', -, hs'⟩ := compressBlock_cases (withEarlier earlier s)
  obtain rfl : ws = ws' := Except.ok.inj (hws.symm.trans hws')
  obtain rfl := Except.ok.inj (hs.symm.trans h)
  exact hs'

/-- R111: any list of blocks of a buffer. -/
theorem blocks_withEarlier (earlier : List Response) (p : List Byte) :
    ∀ (l : List (Fin (p.length / 64))) {s t : State},
      l.foldlM (fun s k => compressBlock (fetchBlock p s k)) s = .ok t →
      l.foldlM (fun s k => compressBlock (fetchBlock p s k)) (withEarlier earlier s) = .ok (withEarlier earlier t)
  | [], s, t, h => Except.ok.inj h ▸ rfl
  | k :: l, s, t, h => by
    obtain ⟨u, hu, -⟩ := compressBlock_keeps (fetchBlock p s k)
    have hu' : compressBlock (fetchBlock p (withEarlier earlier s) k) = .ok (withEarlier earlier u) :=
      compressBlock_withEarlier earlier hu
    rw [List.foldlM_cons, hu, ok_bind] at h
    rw [List.foldlM_cons, hu', ok_bind, blocks_withEarlier earlier p l h]

theorem compress_withEarlier (earlier : List Response) {p : List Byte} {s t : State} (h : compress p s = .ok t) :
    compress p (withEarlier earlier s) = .ok (withEarlier earlier t) :=
  blocks_withEarlier earlier p _ h

theorem KeepsSession.withEarlier {s t : State} (h : KeepsSession s t) (earlier : List Response) :
    KeepsSession (withEarlier earlier s) (withEarlier earlier t) :=
  ⟨h.len, h.fin, h.host, rfl, h.draws⟩

/-- The converse of `exec_ends`: a way to end fixes the answer. -/
theorem CommandEnds.exec_eq {s t : State} {i : Instr} (hends : CommandEnds s i t) : exec i s = .next t := by
  cases hends with
  | init => rfl
  | absorbClosed p hfin => exact execAbsorb_closed p s hfin
  | absorbUnaligned p hfin hp => exact execAbsorb_unaligned p s hfin hp
  | absorbAccepted p t hfin hp hcompress =>
    rw [exec, execAbsorb, if_neg (by simp [hfin]), if_neg (by simp [hp]), hcompress, conclude]
  | finalClosed p hfin => exact execFinal_closed p s hfin
  | finalAccepted p t hfin hcompress =>
    rw [exec, execFinal, if_neg (by simp [hfin]), finalizeWith, hcompress, conclude]
  | readClosed hfin => exact execRead_closed s hfin
  | readOpen t hfin hcompress =>
    rw [exec, execRead, if_neg (by simp [hfin]), finalizeWith, hcompress, conclude, closeSession_hash]

/-- R157: a command ends in the same way, with the same record, whatever was answered before. -/
theorem CommandEnds.of_other_earlier {s t : State} {i : Instr} (hends : CommandEnds s i t) (earlier : List Response) :
    ∃ r, t.responses = s.responses ++ [r] ∧ CommandEnds (withEarlier earlier s) i (withEarlier (earlier ++ [r]) t) := by
  cases hends with
  | init => exact ⟨_, rfl, .init⟩
  | absorbClosed p hfin => exact ⟨_, rfl, .absorbClosed p hfin⟩
  | absorbUnaligned p hfin hp => exact ⟨_, rfl, .absorbUnaligned p hfin hp⟩
  | absorbAccepted p t hfin hp hcompress hkeeps =>
    exact ⟨_, congrArg (· ++ _) hkeeps.responses,
      .absorbAccepted p (withEarlier earlier t) hfin hp (compress_withEarlier earlier hcompress) (hkeeps.withEarlier earlier)⟩
  | finalClosed p hfin => exact ⟨_, rfl, .finalClosed p hfin⟩
  | finalAccepted p t hfin hcompress hkeeps =>
    exact ⟨_, congrArg (· ++ _) hkeeps.responses,
      .finalAccepted p (withEarlier earlier t) hfin (compress_withEarlier earlier hcompress) (hkeeps.withEarlier earlier)⟩
  | readClosed hfin => exact ⟨_, rfl, .readClosed hfin⟩
  | readOpen t hfin hcompress hkeeps =>
    exact ⟨_, congrArg (· ++ _) hkeeps.responses,
      .readOpen (withEarlier earlier t) hfin (compress_withEarlier earlier hcompress) (hkeeps.withEarlier earlier)⟩

theorem execTransaction_withEarlier (tx : Transaction) (s : State) (earlier : List Response) : ∃ t r,
    execTransaction tx s = .next t ∧ t.responses = s.responses ++ [r] ∧
      execTransaction tx (withEarlier earlier s) = .next (withEarlier (earlier ++ [r]) t) := by
  cases hdecode : decode tx with
  | ok i =>
    obtain ⟨t, ht, hends⟩ := exec_ends i s
    obtain ⟨r, hr, hends'⟩ := hends.of_other_earlier earlier
    exact ⟨t, r, by rw [execTransaction_of_decode_ok hdecode, ht], hr,
      by rw [execTransaction_of_decode_ok hdecode, hends'.exec_eq]⟩
  | error e =>
    exact ⟨_, _, execTransaction_of_decode_error hdecode s, rfl, execTransaction_of_decode_error hdecode _⟩

/-- Settles O41: `execTransaction_withEarlier`, the status is `answerStatus` of `FIN`, and a rejection only adds a record. -/
theorem earlierResponsesAreForgotten : Obligations.EarlierResponsesAreForgotten := by
  refine ⟨execTransaction_withEarlier, fun tx s s' hfin => ?alike, fun rejected tx s t r ht hr herror => ?rejected⟩
  case alike =>
    obtain ⟨t, ht, hends⟩ := execTransaction_endsWithStatus tx s
    obtain ⟨t', ht', hends'⟩ := execTransaction_endsWithStatus tx s'
    rw [← hfin] at hends'
    exact ⟨_, t, t', ht, hends.answeredWith, ht', hends'.answeredWith⟩
  case rejected =>
    obtain ⟨rfl, -⟩ := eq_reject_of_status_ne_ok ht hr herror
    obtain ⟨v, q, hv, hvresponses, hu⟩ := execTransaction_withEarlier tx s (reject r.status s).responses
    exact ⟨_, v, q, hu, rfl, hv, hvresponses, rfl, rfl, rfl⟩

end Sys2Proof.Machine
end

section
/-! SUPPORT and PROOFS of the reset family (R170, R172): a new session is Fresh, and both resets leave its registers. -/

namespace Sys2Proof.Machine

/-- R29, R34: the registers of a new session, wherever they come from, are phase Fresh. -/
theorem phase_eq_fresh {s : State} (hhash : s.hash = iv) (hlen : s.len = 0) (hfin : s.fin = false) :
    s.phase = .fresh := by
  rw [State.phase, if_neg (by simp [hfin]), if_pos ⟨hhash, hlen⟩]

/-- R131, R170: from any two states, reset and the start of a session leave the same registers. -/
theorem sameRegisters_startSession_resetEngine (s s' : State) : SameRegisters (startSession s) (resetEngine s') :=
  ⟨rfl, rfl, rfl⟩

/-- R131: `INIT` starts a session and answers `Ok`. -/
theorem exec_init (s : State) : exec .init s = .next (respond (plainResponse .ok) (startSession s)) := rfl

/-- Settles O10: either reset is one `resetEngine` on the rest of the moves, which leaves the registers `INIT` starts with
and adds no record; `INIT` adds its own record and no more. -/
theorem resetAbandonsTheSession : Obligations.ResetAbandonsTheSession := by
  intro s m rest hhost hm
  have hregisters := sameRegisters_startSession_resetEngine s { s with host := rest }
  exact ⟨_, _, step_resets s m rest hhost hm, resetEngine_hash _, resetEngine_len _, resetEngine_fin _,
    phase_eq_fresh (resetEngine_hash _) (resetEngine_len _) (resetEngine_fin _), resetEngine_host _,
    resetEngine_responses _, exec_init s, hregisters⟩

end Sys2Proof.Machine
end

section
/-! SUPPORT and PROOFS of the remaining family: the error that names what is reserved in a word (R77, R82), and the command
words of 95_test_vectors.md section 3.5. -/

namespace Sys2Proof

/-- R77: a reserved `op` is refused whatever `lenb` is. -/
theorem decode_eq_reservedOp {tx : Transaction} {op : BitVec 3} (hop : opField tx.word = op)
    (hreserved : op ∈ [0b000, 0b101, 0b110, 0b111]) : decode tx = .error (.reservedOp op) := by
  simp only [List.mem_cons, List.not_mem_nil, or_false] at hreserved
  rcases hreserved with rfl | rfl | rfl | rfl <;> simp [decode, hop]

/-- R77: a command of the format C0 is refused when its length is not zero. -/
theorem decode_eq_reservedLength {tx : Transaction} {op : BitVec 3} {lenb : BitVec 61} (hop : opField tx.word = op)
    (hlen : lenField tx.word = lenb) (hformat : op ∈ [0b001, 0b100]) (hne : lenb ≠ 0#61) :
    decode tx = .error (.reservedLength op lenb) := by
  simp only [List.mem_cons, List.not_mem_nil, or_false] at hformat
  rcases hformat with rfl | rfl <;> simp [decode, hop, hlen, hne]

end Sys2Proof

namespace Sys2Proof.Machine

/-- Settles O1: the fields of each word (R72) select its answer, and the payload has as many bytes as `lenb` says (R71). -/
theorem specWordsDecode : Obligations.SpecWordsDecode := by
  intro tx
  have hlength := tx.payload_length
  refine ⟨?init, ?absorb63, ?final3, ?finalLongest, ?read, ?zero, ?readWithLength⟩ <;> intro hword <;>
    rw [hword] at hlength
  case init | read => exact decode_eq_ok_iff.mpr ⟨hword ▸ rfl, List.length_eq_zero_iff.mp hlength⟩
  case absorb63 | final3 | finalLongest => exact ⟨decode_eq_ok_iff.mpr ⟨hword ▸ rfl, rfl⟩, hlength⟩
  case zero => exact decode_eq_reservedOp (hword ▸ rfl) (by decide)
  case readWithLength => exact decode_eq_reservedLength (hword ▸ rfl) (hword ▸ rfl) (by decide) (by decide)

end Sys2Proof.Machine
end
